-- ==== Sys2Proof/Word.lean ====
section
/-! DEFINITION. The words of the machine: the unsigned 8-bit value of a memory cell, a register or an operand
(rules R10, R20) and the 9-bit program counter (rules R20, R27). -/

namespace Sys2Proof

/-- A memory cell, a register, an opcode or an operand: an unsigned 8-bit value (R10). -/
abbrev Byte := BitVec 8

/-- The program counter: 9 bits, so that the addresses 256 to 258 past the top of memory are held as they are (R27). -/
abbrev PcWord := BitVec 9

end Sys2Proof
end

