-- ==== Sys2Proof/Config.lean ====
section
/-! DEFINITION. The parameters the spec fixes (rule R7) and the three it leaves open with the value this hardware
takes (rule R8): FETCH_POLICY, SP_POLICY and RESET_GPR. -/

namespace Sys2Proof

/-- `MEM_SIZE` (R7): the number of memory cells. -/
abbrev memSize : Nat := 256

/-- `MEM_RESET` (R7): every cell after reset, and so what an unlisted address reads as. -/
abbrev memReset : Byte := 0x00#8

/-- `SP_INDEX` (R7), as the operand byte that names the stack pointer. -/
abbrev spIndex : Byte := 7#8

/-- `SP_RESET` (R7). -/
abbrev spReset : Byte := 0xF4#8

/-- `PC_RESET` (R7). -/
abbrev pcReset : PcWord := 0#9

/-- `FETCH_POLICY` (R8): which operand bytes a cycle reads, and when. -/
inductive FetchPolicy where
  /-- The dispatch check first, then exactly the operand bytes the opcode asks for (R115, R116). -/
  | byCount
  /-- Both operand bytes in every cycle, before the dispatch check (R126). -/
  | alwaysTwo
  deriving DecidableEq, Repr

/-- `SP_POLICY` (R8): the stack pointer at the ends of memory. -/
inductive SpPolicy where
  /-- The stack pointer is reduced modulo 256 (R167, R169). -/
  | wrap
  /-- PUSH at 0x00 and POP at 0xFF raise `OutOfBounds` (R170). -/
  | fault
  deriving DecidableEq, Repr

/-- `RESET_GPR` (R8): registers 0 to 6 after reset. -/
structure ResetGpr where
  r0 : Byte
  r1 : Byte
  r2 : Byte
  r3 : Byte
  r4 : Byte
  r5 : Byte
  r6 : Byte
  deriving DecidableEq, Repr

/-- The open parameters of the hardware (R8). -/
structure Config where
  fetchPolicy : FetchPolicy
  spPolicy : SpPolicy
  resetGpr : ResetGpr
  deriving DecidableEq, Repr

/-- The values this hardware takes (R8; the spec's decisions D2, D3 and D5).
DESIGN CHOICE (log entries 4, 5 and 6). -/
def Config.hardware : Config where
  fetchPolicy := .byCount
  spPolicy := .wrap
  resetGpr := ⟨0x00#8, 0x00#8, 0x00#8, 0x00#8, 0x00#8, 0x00#8, 0x00#8⟩

end Sys2Proof
end

