-- ==== Sys2Proof/Machine/State.lean ====
section
/-! DEFINITION. The architectural state: the seven items of rule R20 and nothing else, as plain data; the reasons a step
stops; and the state after reset (rules R36, R210). -/

namespace Sys2Proof.Machine

/-- The fault kinds a cycle can record (R30, R181). `invalidValue` and `unsupportedOperation` are kinds the spec defines
and no run raises (R52, R158). -/
inductive FaultKind where
  /-- "memory or register index outside valid range" (R181). -/
  | outOfBounds
  /-- "write value outside the 0–255 domain, if not auto-masked" (R181); never raised, writes are masked (R52). -/
  | invalidValue
  /-- "ALU given an operation it doesn't implement" (R181); never raised (R158). -/
  | unsupportedOperation
  /-- "opcode with no dispatch handler" (R181). -/
  | illegalInstruction
  deriving DecidableEq, Repr

/-- The run state (R29). `faulted`'s reason stands in `State.faultReason`, an item of its own in rule R20. -/
inductive RunState where
  | ready
  | running
  | halted
  | faulted
  deriving DecidableEq, Repr

/-- The register file: 8 registers of 8 bits, `r7` the stack pointer (R21, R22). -/
structure RegFile where
  r0 : Byte
  r1 : Byte
  r2 : Byte
  r3 : Byte
  r4 : Byte
  r5 : Byte
  r6 : Byte
  r7 : Byte
  deriving DecidableEq, Repr

/-- The 256 memory cells (R32, R50), as the list of those that do not hold 0x00, addresses rising. The canonical form is
`Memory.wf` in `Machine/Ops.lean`. -/
abbrev Memory := List Host.Cell

/-- The whole architectural state (R20). -/
structure State where
  /-- `x[0]` to `x[7]` (R21). -/
  regs : RegFile
  /-- The address of the opcode of the instruction about to execute (R26). -/
  pc : PcWord
  /-- `mem[0]` to `mem[255]` (R32). -/
  mem : Memory
  /-- The Running flag, cleared by HLT only (R28). -/
  running : Bool
  /-- The run state (R29). -/
  runState : RunState
  /-- The kind of the fault that ended the run, none unless `runState` is `faulted` (R30, R38). -/
  faultReason : Option FaultKind
  /-- What PRN has emitted, oldest first (R31). -/
  out : List Byte
  deriving DecidableEq, Repr

/-- Why a step stops. Both are the stuck states of rule R110: the spec gives `Halted` and `Faulted` no successor. A fault
of the instruction set itself (R180) is no stop of the model: the cycle that raises it ends in a next state whose run
state is `faulted` (R184, R186). -/
inductive Fault where
  /-- Raised by `step` when the run state is `halted`: terminal, "no further cycles execute" (R110). Safe: the hardware
  has no step there either. -/
  | noStepAfterHalt
  /-- Raised by `step` when the run state is `faulted`: terminal (R110, R187). Safe, as above. -/
  | noStepAfterFault
  deriving DecidableEq, Repr

/-- Why the model gives no meaning. No arm of `exec` is refused at present. -/
inductive Refusal where
  /-- Raised by `exec` for an instruction without a meaning in this model. Safe: the model stops. -/
  | notModelled (mnemonic : String)
  deriving DecidableEq, Repr

/-- The state after reset, `RESET_GPR` an argument (R8, R36, R210). -/
def State.resetWith (g : ResetGpr) : State where
  regs := ⟨g.r0, g.r1, g.r2, g.r3, g.r4, g.r5, g.r6, spReset⟩
  pc := pcReset
  mem := []
  running := true
  runState := .ready
  faultReason := none
  out := []

/-- The state of this hardware after reset and before `load` (R36, R210). Registers 0 to 6 are the spec's decision D5.
DESIGN CHOICE (log entry 6). -/
def State.reset : State := State.resetWith Config.hardware.resetGpr

end Sys2Proof.Machine
end

