-- ==== Sys2Proof/Machine/Ops.lean ====
section
/-! DEFINITION. The shared operations: truncation, the register file, the memory primitives, the output, and taking a
fault. -/

namespace Sys2Proof.Machine

/-- `trunc8(v)` is `v mod 256` (R10). -/
def trunc8 (v : Nat) : Byte := BitVec.ofNat 8 v

/-! ### Registers -/

/-- The content of a register (R21). -/
def RegFile.get (r : RegFile) (i : Fin 8) : Byte :=
  match i with
  | 0 => r.r0
  | 1 => r.r1
  | 2 => r.r2
  | 3 => r.r3
  | 4 => r.r4
  | 5 => r.r5
  | 6 => r.r6
  | 7 => r.r7

/-- The register file with one register replaced (R21). -/
def RegFile.set (r : RegFile) (i : Fin 8) (v : Byte) : RegFile :=
  match i with
  | 0 => { r with r0 := v }
  | 1 => { r with r1 := v }
  | 2 => { r with r2 := v }
  | 3 => { r with r3 := v }
  | 4 => { r with r4 := v }
  | 5 => { r with r5 := v }
  | 6 => { r with r6 := v }
  | 7 => { r with r7 := v }

/-! ### Memory -/

/-- The cell at an address; an unlisted one holds `memReset`, the content the spec states for reset (R36, R51). -/
def Memory.get : Memory → Nat → Byte
  | [], _ => memReset
  | (k, v) :: m, a => if a = k then v else Memory.get m a

/-- The memory with one cell replaced, in canonical form again: a cell that holds `memReset` is not listed (R52). -/
def Memory.set : Memory → Nat → Byte → Memory
  | [], a, v => if v = memReset then [] else [(a, v)]
  | (k, w) :: m, a, v =>
    if a < k then (if v = memReset then (k, w) :: m else (a, v) :: (k, w) :: m)
    else if a = k then (if v = memReset then m else (a, v) :: m)
    else (k, w) :: Memory.set m a v

/-- The canonical form from an address up: addresses strictly rising and below `memSize`, no listed cell at `memReset`. -/
def Memory.wfFrom : Nat → Memory → Bool
  | _, [] => true
  | lo, (k, v) :: m => decide (lo ≤ k) && decide (k < memSize) && decide (v ≠ memReset) && Memory.wfFrom (k + 1) m

/-- The canonical form of a memory. -/
def Memory.wf (m : Memory) : Bool := Memory.wfFrom 0 m

/-- Bytes placed at ascending addresses from `a` up, those past the top of memory dropped. -/
def Memory.setMany : Memory → Nat → List Byte → Memory
  | m, _, [] => m
  | m, a, b :: bs => if a < memSize then Memory.setMany (Memory.set m a b) (a + 1) bs else m

/-- `MemRead(addr, 1)` (R51). -/
def memRead (addr : Nat) (s : State) : Except FaultKind Byte :=
  if addr ≥ memSize then .error .outOfBounds else .ok (s.mem.get addr)

/-- `MemWrite(addr, 1, v)`: the value is masked to 8 bits (R52; the spec's decision D4, log entry 8). -/
def memWrite (addr v : Nat) (s : State) : Except FaultKind State :=
  if addr ≥ memSize then .error .outOfBounds else .ok { s with mem := s.mem.set addr (trunc8 v) }

/-- `n` reads at ascending addresses, in that order (R60); the first that is out of bounds raises. -/
def memReadMany (addr : Nat) : Nat → State → Except FaultKind (List Byte)
  | 0, _ => .ok []
  | n + 1, s => do
    let b ← memRead addr s
    let bs ← memReadMany (addr + 1) n s
    pure (b :: bs)

/-- The bytes of memory from an address up that exist, at most `n`. -/
def Memory.bytesFrom (m : Memory) (addr : Nat) : Nat → List Byte
  | 0 => []
  | n + 1 => if addr < memSize then m.get addr :: Memory.bytesFrom m (addr + 1) n else []

/-! ### Output -/

/-- `Out(v)`: append a byte to the output sequence (R31). -/
def emit (v : Byte) (s : State) : State := { s with out := s.out ++ [v] }

/-! ### Faults -/

/-- `raise K`, the one way a fault is taken: run state `faulted`, the kind recorded, nothing else changed: no saved pc, no
vector, no mode; `pc` stays at the faulting instruction and `running` stays true (R183, R184, R186; the spec's decision D6,
log entry 9). There is no return from a fault beside it: only reset leaves `faulted` (R187). -/
def State.raise (k : FaultKind) (s : State) : State :=
  { s with runState := .faulted, faultReason := some k }

/-- The numeric codes of the fault kinds (R181; the spec's decision D7, log entry 21). -/
def FaultKind.code : FaultKind → Nat
  | .outOfBounds => 1
  | .invalidValue => 2
  | .unsupportedOperation => 3
  | .illegalInstruction => 4

/-- The code of the fault reason, 0 for no fault (R181). -/
def State.faultCode (s : State) : Nat :=
  match s.faultReason with
  | none => 0
  | some k => k.code

/-- How a handler ends: it completes, or it raises a fault and nothing it would have written is written (R117, R184). -/
def settle (s : State) (r : Except FaultKind State) : Host.Outcome State Fault Refusal :=
  match r with
  | .ok t => .next t
  | .error k => .next (s.raise k)

end Sys2Proof.Machine
end

