-- ==== Sys2Proof/Machine/Flags.lean ====
section
/-! DEFINITION. The core has no status flags, no condition codes and no predicate registers, and no instruction computes
one (rule R33). The one flag of the machine is the Running flag (rule R28). -/

namespace Sys2Proof.Machine

/-- `running <- false` (R11, R28): written by HLT only. -/
def clearRunning (s : State) : State := { s with running := false }

end Sys2Proof.Machine
end

