-- ==== Sys2Proof/Machine/Halt.lean ====
section
/-! DEFINITION. HLT (rules R140, R141). -/

namespace Sys2Proof.Machine

/-- HLT: clear the Running flag; the loop then sets the run state to `halted` and leaves `pc` (R118, R140). -/
def execHlt (s : State) : Host.Outcome State Fault Refusal := settle s (.ok (clearRunning s))

end Sys2Proof.Machine
end

