-- ==== Sys2Proof/Machine/Operands.lean ====
section
/-! DEFINITION. The two uses of an operand byte (rule R84): a register index, used whole and checked against 7 (rules R23
and R24), and an immediate, which is the byte itself and needs no operation. -/

namespace Sys2Proof.Machine

/-- The register an operand byte names. The byte is not masked to 3 bits: above 7 is `OutOfBounds` (R23, R84). -/
def regIndex (b : Byte) : Except FaultKind (Fin 8) :=
  if h : b.toNat < 8 then .ok ⟨b.toNat, h⟩ else .error .outOfBounds

/-- `x[b]`: register read (R23). -/
def readReg (b : Byte) (s : State) : Except FaultKind Byte := do
  let i ← regIndex b
  pure (s.regs.get i)

/-- `x[b] <- v`: register write, the value masked to 8 bits (R24). -/
def writeReg (b : Byte) (v : Nat) (s : State) : Except FaultKind State := do
  let i ← regIndex b
  pure { s with regs := s.regs.set i (trunc8 v) }

end Sys2Proof.Machine
end

