-- ==== Sys2Proof/Machine/LoadImmediate.lean ====
section
/-! DEFINITION. LDI (rules R145, R146). -/

namespace Sys2Proof.Machine

/-- LDI: `x[a] <- b`; `OutOfBounds` when `a > 7`, raised by the register write (R145). -/
def execLdi (a b : Byte) (s : State) : Host.Outcome State Fault Refusal := settle s (writeReg a b.toNat s)

end Sys2Proof.Machine
end

