-- ==== Sys2Proof/Machine/Multiply.lean ====
section
/-! DEFINITION. The ALU (rules R155 to R159) and MUL (rules R160, R161). -/

namespace Sys2Proof.Machine

/-- The ALU's operation select, symbolic (R159). ADD is reached by no instruction (R158). No other name can be put to
the ALU, so `UnsupportedOperation` cannot arise (R158; log entry 16). -/
inductive AluOp where
  | add
  | mul
  deriving DecidableEq, Repr

/-- `Alu(op, a, b)`: the exact result truncated to 8 bits; no flag leaves it (R155 to R157). -/
def alu (op : AluOp) (a b : Byte) : Byte :=
  match op with
  | .add => trunc8 (a.toNat + b.toNat)
  | .mul => trunc8 (a.toNat * b.toNat)

/-- MUL: `x[a] <- Alu(MUL, x[a], x[b])`, both sources read before the write; `OutOfBounds` when `a > 7` or `b > 7`
(R160). -/
def execMul (a b : Byte) (s : State) : Host.Outcome State Fault Refusal :=
  settle s do
    let va ← readReg a s
    let vb ← readReg b s
    writeReg a (alu .mul va vb).toNat s

end Sys2Proof.Machine
end

