-- ==== Sys2Proof/Machine/Print.lean ====
section
/-! DEFINITION. PRN (rules R150, R152). The rendering of the output is in `Machine/Interface.lean`. -/

namespace Sys2Proof.Machine

/-- PRN: `Out(x[a])`; `OutOfBounds` when `a > 7`, raised by the register read, and then nothing is emitted (R150). -/
def execPrn (a : Byte) (s : State) : Host.Outcome State Fault Refusal :=
  settle s do
    let v ← readReg a s
    pure (emit v s)

end Sys2Proof.Machine
end

