-- ==== Sys2Proof/Machine/Stack.lean ====
section
/-! DEFINITION. PUSH and POP (rules R165 to R170), under either `SP_POLICY`. The effects stand in the order the source
writes them, each read sees the writes before it (R167, R169; the spec's decision D17, log entry 10), and every check
comes before the first write (R184). -/

namespace Sys2Proof.Machine

/-- The stack pointer check of `SP_POLICY = fault`: `OutOfBounds` when the pointer is at the end it would pass (R170).
Under `wrap` there is none (R166, R168). -/
def stackCheck (p : SpPolicy) (last : Byte) (s : State) : Except FaultKind Unit :=
  match p with
  | .wrap => .ok ()
  | .fault => do
    let sp ← readReg spIndex s
    if sp = last then .error .outOfBounds else .ok ()

/-- PUSH under a policy: the pointer is decremented modulo 256, then the register is stored where it points (R166). -/
def pushUnder (p : SpPolicy) (a : Byte) (s : State) : Except FaultKind State := do
  let _ ← regIndex a
  stackCheck p 0x00#8 s
  let sp ← readReg spIndex s
  let s1 ← writeReg spIndex (sp - 1#8).toNat s
  let addr ← readReg spIndex s1
  let v ← readReg a s1
  memWrite addr.toNat v.toNat s1

/-- POP under a policy: the byte the pointer addresses goes to the register, then the pointer, read after that write, is
incremented modulo 256 (R168). -/
def popUnder (p : SpPolicy) (a : Byte) (s : State) : Except FaultKind State := do
  let _ ← regIndex a
  stackCheck p 0xFF#8 s
  let sp ← readReg spIndex s
  let v ← memRead sp.toNat s
  let s1 ← writeReg a v.toNat s
  let sp1 ← readReg spIndex s1
  writeReg spIndex (sp1 + 1#8).toNat s1

/-- PUSH on this hardware (R166). -/
def execPush (a : Byte) (s : State) : Host.Outcome State Fault Refusal :=
  settle s (pushUnder Config.hardware.spPolicy a s)

/-- POP on this hardware (R168). -/
def execPop (a : Byte) (s : State) : Host.Outcome State Fault Refusal :=
  settle s (popUnder Config.hardware.spPolicy a s)

end Sys2Proof.Machine
end

