-- ==== Sys2Proof/Syntax.lean ====
section
/-! DEFINITION. The instructions: one constructor per row of `spec/opcode_table.json` (rule R86). An operand is the
whole operand byte (rule R84): an index above 7 is an instruction all the same, and faults when it runs. -/

namespace Sys2Proof

/-- The six instructions (R86). `a` and `b` are `operand_a` and `operand_b`. -/
inductive Instr where
  /-- HLT (R140). -/
  | hlt
  /-- LDI: `a` a register index, `b` an immediate (R145). -/
  | ldi (a b : Byte)
  /-- PRN: `a` a register index (R150). -/
  | prn (a : Byte)
  /-- MUL: `a` the destination and first source index, `b` the second source index (R160). -/
  | mul (a b : Byte)
  /-- PUSH: `a` a register index (R166). -/
  | push (a : Byte)
  /-- POP: `a` a register index (R168). -/
  | pop (a : Byte)
  deriving DecidableEq, Repr

end Sys2Proof
end

