-- ==== Sys2Proof/Machine/Dispatch.lean ====
section
/-! DEFINITION. The dispatch of rule R117: one arm per instruction, each one call of its handler. The handler neither
reads nor writes `pc` (rule R26): the loop of `Machine/Loop.lean` advances it. -/

namespace Sys2Proof.Machine

/-- Step 5 of a cycle: the handler selected by the opcode runs with its operands (R117). -/
def exec (i : Instr) (s : State) : Host.Outcome State Fault Refusal :=
  match i with
  | .hlt => Sys2Proof.Machine.execHlt s
  | .ldi a b => Sys2Proof.Machine.execLdi a b s
  | .prn a => Sys2Proof.Machine.execPrn a s
  | .mul a b => Sys2Proof.Machine.execMul a b s
  | .push a => Sys2Proof.Machine.execPush a s
  | .pop a => Sys2Proof.Machine.execPop a s

end Sys2Proof.Machine
end

