-- ==== Sys2Proof/Decode.lean ====
section
/-! DEFINITION. The instruction decoder, total on any bytes and rejecting by name (rules R80 to R91), and after it the
encoder, written from the same table of rule R86. -/

namespace Sys2Proof

/-- The decoder's three outputs (R82). `operandCount` is the raw 2-bit field: 3 comes out for the opcodes 0xC0 to 0xFF
and has no meaning (R83). -/
structure Fields where
  operandCount : BitVec 2
  isAlu : Bool
  setsPc : Bool
  deriving DecidableEq, Repr

/-- Three slices of the opcode byte, defined for all 256 values: bits 7:6, bit 5, bit 4 (R81, R82). -/
def decodeFields (opcode : Byte) : Fields where
  operandCount := opcode.extractLsb' 6 2
  isAlu := opcode.getLsbD 5
  setsPc := opcode.getLsbD 4

/-- The actions the dispatch table selects (R14, R86). -/
inductive Handler where
  | hlt
  | ldi
  | prn
  | mul
  | push
  | pop
  deriving DecidableEq, Repr

/-- The dispatch table: exactly six opcodes (R86). -/
def dispatchTable : List (Byte × Handler) :=
  [(0x01#8, .hlt), (0x82#8, .ldi), (0x47#8, .prn), (0xA2#8, .mul), (0x45#8, .push), (0x46#8, .pop)]

/-- The dispatch lookup, on all 8 bits of the opcode (R86, R93, R114). -/
def findHandler (opcode : Byte) : Option Handler := dispatchTable.lookup opcode

/-- The instruction of a handler and its operand bytes, where their number is the handler's (R86). -/
def Handler.withOperands : Handler → List Byte → Option Instr
  | .hlt, [] => some .hlt
  | .ldi, [a, b] => some (.ldi a b)
  | .prn, [a] => some (.prn a)
  | .mul, [a, b] => some (.mul a b)
  | .push, [a] => some (.push a)
  | .pop, [a] => some (.pop a)
  | .hlt, _ => none
  | .ldi, _ => none
  | .prn, _ => none
  | .mul, _ => none
  | .push, _ => none
  | .pop, _ => none

/-- Why bytes are no instruction. -/
inductive DecodeError where
  /-- There is no opcode byte. -/
  | noOpcode
  /-- The opcode has no handler (R88). -/
  | illegalOpcode (opcode : Byte)
  /-- The bytes end before the operands do. -/
  | missingOperand
  deriving DecidableEq, Repr

/-- A decoded instruction: the decoder's outputs, the instruction, and the bytes after it. -/
structure Decoded where
  fields : Fields
  instr : Instr
  rest : List Byte
  deriving DecidableEq, Repr

/-- Decode the instruction at the front of a list of bytes. The dispatch check comes before the operands (R115), and as
many operand bytes are taken as bits 7:6 of the opcode say (R85, R90). -/
def decode : List Byte → Except DecodeError Decoded
  | [] => .error .noOpcode
  | opcode :: rest =>
    match findHandler opcode with
    | none => .error (.illegalOpcode opcode)
    | some h =>
      let f := decodeFields opcode
      let n := f.operandCount.toNat
      if rest.length < n then .error .missingOperand
      else
        match h.withOperands (rest.take n) with
        | some i => .ok ⟨f, i, rest.drop n⟩
        | none => .error .missingOperand

/-- The handler of an instruction (R86). -/
def Instr.handler : Instr → Handler
  | .hlt => .hlt
  | .ldi _ _ => .ldi
  | .prn _ => .prn
  | .mul _ _ => .mul
  | .push _ => .push
  | .pop _ => .pop

/-- The opcode column of the table (R86). -/
def Handler.opcode : Handler → Byte
  | .hlt => 0x01#8
  | .ldi => 0x82#8
  | .prn => 0x47#8
  | .mul => 0xA2#8
  | .push => 0x45#8
  | .pop => 0x46#8

/-- The opcode byte of an instruction. -/
def Instr.opcode (i : Instr) : Byte := i.handler.opcode

/-- The operand bytes of an instruction, `operand_a` first (R80). -/
def Instr.operands : Instr → List Byte
  | .hlt => []
  | .ldi a b => [a, b]
  | .prn a => [a]
  | .mul a b => [a, b]
  | .push a => [a]
  | .pop a => [a]

/-- The bytes of an instruction at ascending addresses: the opcode, then the operands (R55, R80, R86). -/
def encode (i : Instr) : List Byte := i.opcode :: i.operands

/-- The bytes of an opcode-table word: bit 0 is the least significant bit of the first byte, the second byte is bits
15 to 8, and every bit from `nbits` up is 0; three bytes, the longest instruction (R80). -/
def tableBytes (nbits w : Nat) : List Byte :=
  let v := w % 2 ^ nbits
  [BitVec.ofNat 8 v, BitVec.ofNat 8 (v / 256), BitVec.ofNat 8 (v / 65536)]

/-- The instruction the decoder reads from an opcode-table word; none where it refuses. -/
def decodeTableWord (nbits w : Nat) : Option Instr :=
  match decode (tableBytes nbits w) with
  | .ok d => some d.instr
  | .error _ => none

end Sys2Proof
end

