-- ==== Sys2Proof/Machine/Loop.lean ====
section
/-! DEFINITION. The execution loop around a handler (rules R110 to R122): fetch, decode, dispatch check, operand fetch,
and what follows the handler. `Machine/Step.lean` puts `exec` into it. -/

namespace Sys2Proof.Machine

/-- What a cycle has before its handler runs: the decoder's outputs and the instruction. -/
structure Fetched where
  fields : Fields
  instr : Instr
  deriving DecidableEq, Repr

/-- The fault of bytes that are no instruction: an opcode without a handler is `IllegalInstruction` (R114), a byte that
does not exist is `OutOfBounds` (R112, R116). -/
def decodeErrorKind : DecodeError → FaultKind
  | .noOpcode => .outOfBounds
  | .illegalOpcode _ => .illegalInstruction
  | .missingOperand => .outOfBounds

/-- The decoder on fetched bytes. -/
def decodeFetched (bytes : List Byte) : Except FaultKind Fetched :=
  match decode bytes with
  | .ok d => .ok ⟨d.fields, d.instr⟩
  | .error e => .error (decodeErrorKind e)

/-- The dispatch check: an opcode without a handler is `IllegalInstruction` (R114). -/
def dispatchCheck (opcode : Byte) : Except FaultKind Unit :=
  match findHandler opcode with
  | none => .error .illegalInstruction
  | some _ => .ok ()

/-- Steps 1 to 4 of a cycle: the opcode fetch at `pc`, then under `byCount` the dispatch check and exactly the operand
bytes the opcode asks for (R112 to R116), under `alwaysTwo` both operand bytes and then the dispatch check (R126).
Addresses are exact sums, never reduced modulo 256 (R27). -/
def fetch (p : FetchPolicy) (s : State) : Except FaultKind Fetched := do
  let ir ← memRead s.pc.toNat s
  match p with
  | .byCount =>
    dispatchCheck ir
    let ops ← memReadMany (s.pc.toNat + 1) (decodeFields ir).operandCount.toNat s
    decodeFetched (ir :: ops)
  | .alwaysTwo =>
    let ops ← memReadMany (s.pc.toNat + 1) 2 s
    dispatchCheck ir
    decodeFetched (ir :: ops)

/-- Step 0 of a cycle: `Ready` becomes `Running` (R111). -/
def startCycle (s : State) : State := { s with runState := .running }

/-- Steps 6 and 7 of a cycle, `n` the operand count: after a fault nothing more; with the Running flag cleared the run
state becomes `halted` and `pc` stays (R118); otherwise `pc` moves past the instruction (R119). -/
def afterHandler (n : BitVec 2) (s : State) : State :=
  if s.runState = .faulted then s
  else if s.running = false then { s with runState := .halted }
  else { s with pc := s.pc + 1#9 + BitVec.ofNat 9 n.toNat }

/-- One cycle (R121) of a machine whose fetch policy is `p` and whose handlers are `handlers`. `Halted` and `Faulted` have
no cycle (R110). -/
def cycleWith (p : FetchPolicy) (handlers : Instr → State → Host.Outcome State Fault Refusal) (s : State) :
    Host.Outcome State Fault Refusal :=
  match s.runState with
  | .halted => .fault .noStepAfterHalt
  | .faulted => .fault .noStepAfterFault
  | .ready | .running =>
    match fetch p (startCycle s) with
    | .error k => .next ((startCycle s).raise k)
    | .ok f =>
      match handlers f.instr (startCycle s) with
      | .next t => .next (afterHandler f.fields.operandCount t)
      | .fault r => .fault r
      | .refused r => .refused r

/-- The bytes of an opcode-table word placed at the program counter, where the next fetch reads. -/
def placeAtPc (bytes : List Byte) (s : State) : State := { s with mem := s.mem.setMany s.pc.toNat bytes }

end Sys2Proof.Machine
end

