-- ==== Sys2Proof/Machine/Step.lean ====
section
/-! DEFINITION. The step of the machine: one cycle of the loop (rule R121) with this hardware's fetch policy and the
handlers of `Machine/Dispatch.lean`. -/

namespace Sys2Proof.Machine

/-- One cycle, that is one whole instruction (R6, R121). -/
def step (s : State) : Host.Outcome State Fault Refusal := cycleWith Config.hardware.fetchPolicy exec s

/-- The state with an opcode-table word stored where the next step fetches: at `pc`, its first byte first. It stands for
the host's `load` of that instruction (R212; log entry 13). -/
def State.withFetchWord (s : State) (nbits w : Nat) : State := placeAtPc (tableBytes nbits w) s

end Sys2Proof.Machine
end

