-- ==== Sys2Proof/Machine/Policy.lean ====
section
/-! DEFINITION. The machine under any choice of the spec's open parameters (rules R8, R126, R170). The hardware of this
model is `stepUnder Config.hardware`, which is `step`. -/

namespace Sys2Proof.Machine

/-- The handlers under a stack pointer policy: PUSH and POP alone depend on it (R170). -/
def execUnder (p : SpPolicy) (i : Instr) (s : State) : Host.Outcome State Fault Refusal :=
  match i with
  | .hlt => execHlt s
  | .ldi a b => execLdi a b s
  | .prn a => execPrn a s
  | .mul a b => execMul a b s
  | .push a => settle s (pushUnder p a s)
  | .pop a => settle s (popUnder p a s)

/-- One cycle under a choice of the open parameters (R126, R170). -/
def stepUnder (c : Config) (s : State) : Host.Outcome State Fault Refusal :=
  cycleWith c.fetchPolicy (execUnder c.spPolicy) s

/-- The machine under a choice of the open parameters, its reset included (R8). -/
def coreUnder (c : Config) : Host.Core where
  State := State
  Fault := Fault
  Refusal := Refusal
  step := stepUnder c
  reset := State.resetWith c.resetGpr

end Sys2Proof.Machine
end

