-- ==== Sys2Proof/Machine/Interface.lean ====
section
/-! DEFINITION. The host's side: reset, load, cycle and run, observe (rules R210 to R216), and the rendering of the output
(rule R151). The host's record of its own loads is the model's, not the spec's: no item of rule R20 holds it (log entry
13). -/

namespace Sys2Proof.Machine

/-! ### Runs -/

/-- At most `n` cycles, fewer where the run ends: a step budget of the host (R215). Stopping changes nothing. -/
def runFuel : Nat → State → State
  | 0, s => s
  | n + 1, s =>
    match step s with
    | .next t => runFuel n t
    | .fault _ => s
    | .refused _ => s

/-- The most cycles a run has (R124). -/
abbrev runLimit : Nat := 129

/-- `run()`: cycles until the end of the run (R125, R214). -/
def run (s : State) : State := runFuel runLimit s

/-- The end of a run (R123). -/
def State.ended (s : State) : Bool := decide (s.runState = .halted) || decide (s.runState = .faulted)

/-- What `run()` reports: success, which carries nothing, or the fault reason; none when the run has not ended
(R125, R214; the spec's decision D20, log entry 20). -/
def State.exitStatus (s : State) : Option (Except FaultKind Unit) :=
  match s.runState with
  | .halted => some (.ok ())
  | .faulted => s.faultReason.map .error
  | .ready => none
  | .running => none

/-! ### Loading -/

/-- What the host has loaded since reset. -/
inductive LoadPhase where
  | notLoaded
  | loaded
  /-- A load failed, here or in the loader outside: no cycle may run until reset (R188, R213). -/
  | failed
  deriving DecidableEq, Repr

/-- A machine in the hands of its host. -/
structure Session where
  machine : State
  loadPhase : LoadPhase
  deriving DecidableEq, Repr

/-- Why a load has no meaning (R213). -/
inductive LoadRefusal where
  /-- The run state is not `Ready`. -/
  | notReady
  /-- There was a load since reset. -/
  | secondLoad
  deriving DecidableEq, Repr

/-- How `load` ends (R212, R213). -/
inductive LoadResult where
  | accepted
  | failed (k : FaultKind)
  | refused (r : LoadRefusal)
  deriving DecidableEq, Repr

/-- Why the host may not start a cycle. -/
inductive CycleRefusal where
  /-- A load failed; the machine must be reset (R188, R213). -/
  | loadFailed
  /-- The core's own refusal. -/
  | core (r : Refusal)
  deriving DecidableEq, Repr

/-- Reset: every piece of state at its reset value, nothing survives (R210, R211). -/
def Session.reset : Session := ⟨State.reset, .notLoaded⟩

/-- The bytes at ascending addresses from 0, nothing else changed (R212). -/
def loadBytes (bytes : List Byte) (s : State) : State := { s with mem := s.mem.setMany 0 bytes }

/-- `load(bytes)`: only in `Ready` and once per reset; more than 256 bytes fail with `OutOfBounds` and place none
(R212, R213; the spec's decision D10). -/
def Session.load (bytes : List Byte) (h : Session) : Session × LoadResult :=
  if h.machine.runState = .ready then
    match h.loadPhase with
    | .loaded => (h, .refused .secondLoad)
    | .failed => (h, .refused .secondLoad)
    | .notLoaded =>
      if bytes.length > memSize then ({ h with loadPhase := .failed }, .failed .outOfBounds)
      else (⟨loadBytes bytes h.machine, .loaded⟩, .accepted)
  else (h, .refused .notReady)

/-- One cycle asked for by the host (R15, R215). -/
def Session.cycle (h : Session) : Host.Outcome Session Fault CycleRefusal :=
  match h.loadPhase with
  | .failed => .refused .loadFailed
  | .notLoaded | .loaded =>
    match step h.machine with
    | .next t => .next { h with machine := t }
    | .fault r => .fault r
    | .refused r => .refused (.core r)

/-- `run()` asked for by the host: no cycle runs after a failed load (R188, R213, R214). -/
def Session.run (h : Session) : Host.Outcome Session Fault CycleRefusal :=
  match h.loadPhase with
  | .failed => .refused .loadFailed
  | .notLoaded | .loaded => .next { h with machine := Sys2Proof.Machine.run h.machine }

/-! ### Observation -/

/-- What the host may read (R216): during a run the output only, after its end all of the state. -/
inductive Observation where
  | outputOnly (out : List Byte)
  | everything (s : State)
  deriving DecidableEq, Repr

/-- Observation changes nothing (R216; log entry 19 on `Ready`). -/
def observe (s : State) : Observation := if s.ended then .everything s else .outputOnly s.out

/-! ### Rendering -/

/-- A decimal digit. -/
def digitChar (n : Nat) : Char := Char.ofNat (48 + n)

/-- The decimal digits of a byte: no sign, no leading zeros, no padding, `0` for zero (R151). -/
def decimal (v : Byte) : List Char :=
  let n := v.toNat
  if n < 10 then [digitChar n]
  else if n < 100 then [digitChar (n / 10), digitChar (n % 10)]
  else [digitChar (n / 100), digitChar (n / 10 % 10), digitChar (n % 10)]

/-- One element rendered: its digits and one line feed, 0x0A (R151; the line feed is PRESUMED, log entry 14). -/
def renderElement (v : Byte) : List Char := decimal v ++ [Char.ofNat 10]

/-- The rendered output: the elements in order (R151, R152). -/
def render (out : List Byte) : List Char := out.flatMap renderElement

end Sys2Proof.Machine
end

