-- ==== Sys2Proof/WellFormed.lean ====
section
/-! DEFINITION. A well-formed instruction names only registers that exist: bits 7 to 3 of every register operand are
zero (rules R84 and R225). The decoder does not check this: the hardware decodes such an instruction and faults when it
runs it (rules R23 and R24). -/

namespace Sys2Proof

/-- A register operand is valid when it is 0 to 7 (R84). -/
def validIndex (b : Byte) : Bool := decide (b.toNat < 8)

/-- Every register operand of the instruction is valid (R84, R225). LDI's second operand is an immediate: any byte. -/
def Instr.wellFormed : Instr → Bool
  | .hlt => true
  | .ldi a _ => validIndex a
  | .prn a => validIndex a
  | .mul a b => validIndex a && validIndex b
  | .push a => validIndex a
  | .pop a => validIndex a

end Sys2Proof
end

