-- ==== Sys2Proof/Safety.lean ====
section
/-! DEFINITION. What counts as a safe run, in the terms the statements use: the invariant of reachable states (rule R38
and the canonical form of memory), a good end (rule R187), and the parts of the state a frame speaks of. -/

namespace Sys2Proof.Machine

/-- The invariant of every reachable state: R38 (a), (b), (c) and (e), and the canonical form of memory.
R38 (d) is about a step, not a state: `OutputOnlyGrows`. -/
abbrev State.Inv (s : State) : Prop :=
  s.mem.wf = true ∧ (s.running = false ↔ s.runState = .halted) ∧ s.pc.toNat ≤ 258 ∧
    (s.faultReason.isSome = true ↔ s.runState = .faulted) ∧ (s.runState = .ready → s.out = [] ∧ s.pc = 0#9)

/-- A cycle may run (R110). -/
abbrev State.canCycle (s : State) : Prop := s.runState = .ready ∨ s.runState = .running

/-- The good end of a run (R123, R187). -/
abbrev State.goodEnd (s : State) : Prop := s.runState = .halted

/-- The control state is unchanged: `pc`, the Running flag, the run state and the fault reason. -/
def SameControl (s t : State) : Prop :=
  t.pc = s.pc ∧ t.running = s.running ∧ t.runState = s.runState ∧ t.faultReason = s.faultReason

/-- The operand byte that names a register. -/
def regByte (i : Fin 8) : Byte := BitVec.ofNat 8 i.val

/-- The operand bytes of the registers an instruction may write: the writes column of rule R25. -/
def writtenRegs : Instr → List Byte
  | .hlt => []
  | .ldi a _ => [a]
  | .prn _ => []
  | .mul a _ => [a]
  | .push _ => [spIndex]
  | .pop a => [a, spIndex]

/-- The one address an instruction stores to, if any: PUSH of a valid register stores where the decremented stack pointer
points (R53, R166). -/
def storeAddress (i : Instr) (s : State) : Option Nat :=
  match i with
  | .push a => if validIndex a then some (s.regs.get 7 - 1#8).toNat else none
  | .hlt => none
  | .ldi _ _ => none
  | .prn _ => none
  | .mul _ _ => none
  | .pop _ => none

/-- The bytes of memory the next cycle decodes: those at `pc`, `pc + 1` and `pc + 2` that exist. -/
def State.window (s : State) : List Byte := s.mem.bytesFrom s.pc.toNat 3

/-- Instructions executed one after the other, without the loop around them. -/
def execAll : List Instr → State → Host.Outcome State Fault Refusal
  | [], s => .next s
  | i :: is, s =>
    match exec i s with
    | .next t => execAll is t
    | .fault r => .fault r
    | .refused r => .refused r

end Sys2Proof.Machine
end

