-- ==== Sys2Proof/Certificates/Slice0/Obligations.lean ====
section
/-! DEFINITION. The statements for the provers. Each docstring names the rules of `spec/` it rests on; where a clause rests
on one of the spec's own decisions or on a choice of the model, it says so and names the log entry. -/

open Sys2Proof Sys2Proof.Machine

/-! ### Encoding -/

/-- Words written out bit by bit from the table of R86, one per instruction, decode to the instruction they stand for. -/
def Obligations.DecodeReadsTableWords : Prop :=
  decode [0b00000001#8] = .ok ⟨⟨0#2, false, false⟩, .hlt, []⟩ ∧
  decode [0b10000010#8, 0b00000011#8, 0b11111111#8] = .ok ⟨⟨2#2, false, false⟩, .ldi 3#8 255#8, []⟩ ∧
  decode [0b01000111#8, 0b00000111#8] = .ok ⟨⟨1#2, false, false⟩, .prn 7#8, []⟩ ∧
  decode [0b10100010#8, 0b00000010#8, 0b00000001#8] = .ok ⟨⟨2#2, true, false⟩, .mul 2#8 1#8, []⟩ ∧
  decode [0b01000101#8, 0b00000000#8] = .ok ⟨⟨1#2, false, false⟩, .push 0#8, []⟩ ∧
  decode [0b01000110#8, 0b00000110#8, 0b00000001#8] = .ok ⟨⟨1#2, false, false⟩, .pop 6#8, [1#8]⟩

/-- Decoding an encoded instruction, whatever follows it, gives the instruction back with every operand bit, the decoder's
outputs for its opcode, and the bytes that follow (R80, R84, R85, R86). -/
def Obligations.DecodeInvertsEncode : Prop :=
  ∀ (i : Instr) (rest : List Byte), decode (encode i ++ rest) = .ok ⟨decodeFields i.opcode, i, rest⟩

/-- Bytes that decode are the encoding of what they decode to, followed by the rest: no two byte sequences of one length
stand for one instruction (R80, R84, R86). -/
def Obligations.EncodeInvertsDecode : Prop :=
  ∀ (bytes : List Byte) (d : Decoded), decode bytes = .ok d →
    encode d.instr ++ d.rest = bytes ∧ d.fields = decodeFields d.instr.opcode

/-- The illegal opcodes are exactly the ranges R88 lists, and the decoder rejects each by name whatever follows it. That
the table is closed is the spec's decision D9 (log entry 12). -/
def Obligations.IllegalOpcodesAreRejected : Prop :=
  ∀ opcode : Byte,
    (findHandler opcode = none ↔
      (opcode.toNat = 0 ∨ (0x02 ≤ opcode.toNat ∧ opcode.toNat ≤ 0x44) ∨ (0x48 ≤ opcode.toNat ∧ opcode.toNat ≤ 0x81) ∨
        (0x83 ≤ opcode.toNat ∧ opcode.toNat ≤ 0xA1) ∨ 0xA3 ≤ opcode.toNat)) ∧
    (findHandler opcode = none → ∀ rest, decode (opcode :: rest) = .error (.illegalOpcode opcode))

/-- The decoder's outputs are bits 7:6, bit 5 and bit 4 of the opcode, for all 256 values; the count comes out 3 exactly
for 0xC0 to 0xFF (R82, R83; that the raw 3 comes out is the spec's decision D8, log entry 12). -/
def Obligations.DecoderOutputsAreSlices : Prop :=
  ∀ opcode : Byte,
    (decodeFields opcode).operandCount.toNat = opcode.toNat / 64 % 4 ∧
    ((decodeFields opcode).isAlu = true ↔ opcode.toNat / 32 % 2 = 1) ∧
    ((decodeFields opcode).setsPc = true ↔ opcode.toNat / 16 % 2 = 1) ∧
    ((decodeFields opcode).operandCount = 3#2 ↔ 0xC0 ≤ opcode.toNat)

/-! ### Registers and memory -/

/-- R37: a register write followed by a read returns what was written, and the write changes no other register, no memory
cell and no control state. -/
def Obligations.RegisterWriteThenRead : Prop :=
  ∀ (s : State) (r v : Byte), r.toNat ≤ 7 →
    ∃ t, writeReg r v.toNat s = .ok t ∧ readReg r t = .ok v ∧ (∀ q : Byte, q ≠ r → readReg q t = readReg q s) ∧
      t.mem = s.mem ∧ SameControl s t ∧ t.out = s.out

/-- R23: a register read gives the content of the register when the index byte is at most 7 and `OutOfBounds` otherwise;
the index is not masked to 3 bits. -/
def Obligations.RegisterReadChecksIndex : Prop :=
  ∀ (s : State) (b : Byte),
    (∀ h : b.toNat ≤ 7, readReg b s = .ok (s.regs.get ⟨b.toNat, Nat.lt_succ_of_le h⟩)) ∧
    (7 < b.toNat → readReg b s = .error .outOfBounds)

/-- R24: a register write of any value stores it modulo 256 when the index byte is at most 7, and raises `OutOfBounds`
otherwise. -/
def Obligations.RegisterWriteMasksAndChecks : Prop :=
  ∀ (s : State) (b : Byte) (v : Nat),
    (b.toNat ≤ 7 → ∃ t x, writeReg b v s = .ok t ∧ readReg b t = .ok x ∧ x.toNat = v % 256) ∧
    (7 < b.toNat → writeReg b v s = .error .outOfBounds)

/-- R51: a memory read gives the cell below address 256 and `OutOfBounds` from 256 up. -/
def Obligations.MemoryReadChecksAddress : Prop :=
  ∀ (s : State) (addr : Nat),
    (addr < 256 → memRead addr s = .ok (s.mem.get addr)) ∧ (256 ≤ addr → memRead addr s = .error .outOfBounds)

/-- R52 and R65: a memory write of any value below address 256 is read back modulo 256, changes no other cell and nothing
else, and keeps the canonical form; from 256 up it raises `OutOfBounds`. Masking is the spec's decision D4 (log entry 8).
The canonical form is a premise; `StepKeepsInvariant` says every step keeps it. -/
def Obligations.MemoryWriteThenRead : Prop :=
  ∀ (s : State) (addr v : Nat), s.mem.wf = true →
    (addr < 256 → ∃ t x, memWrite addr v s = .ok t ∧ memRead addr t = .ok x ∧ x.toNat = v % 256 ∧
      (∀ a, a ≠ addr → memRead a t = memRead a s) ∧ t = { s with mem := t.mem } ∧ t.mem.wf = true) ∧
    (256 ≤ addr → memWrite addr v s = .error .outOfBounds)

/-- Two memories in canonical form that read the same at every address of the space are the same data. The canonical list
is the model's choice (log entry 7); the space of 256 cells is R50's. -/
def Obligations.EqualMemoriesAreEqualData : Prop :=
  ∀ m n : Memory, m.wf = true → n.wf = true → (∀ a, a < 256 → m.get a = n.get a) → m = n

/-- R36: the state after reset. Registers 0 to 6 are the spec's decision D5 (DESIGN CHOICE, log entry 6). -/
def Obligations.ResetValues : Prop :=
  (∀ r : Fin 8, State.reset.regs.get r = if r = 7 then 0xF4#8 else 0x00#8) ∧ State.reset.pc = 0#9 ∧
    (∀ a, State.reset.mem.get a = 0x00#8) ∧ State.reset.running = true ∧ State.reset.runState = .ready ∧
    State.reset.faultReason = none ∧ State.reset.out = []

/-! ### The ALU -/

/-- R156: `Alu(ADD, a, b)` is the sum modulo 256, with the rule's five examples. -/
def Obligations.AluAddIsSumModulo256 : Prop :=
  (∀ a b : Byte, (alu .add a b).toNat = (a.toNat + b.toNat) % 256) ∧
    alu .add 1#8 2#8 = 3#8 ∧ alu .add 255#8 1#8 = 0#8 ∧ alu .add 200#8 100#8 = 44#8 ∧ alu .add 255#8 255#8 = 254#8 ∧
    alu .add 0#8 0#8 = 0#8

/-- R157: `Alu(MUL, a, b)` is the product modulo 256, with the rule's eight examples. -/
def Obligations.AluMulIsProductModulo256 : Prop :=
  (∀ a b : Byte, (alu .mul a b).toNat = (a.toNat * b.toNat) % 256) ∧
    alu .mul 8#8 9#8 = 72#8 ∧ alu .mul 16#8 16#8 = 0#8 ∧ alu .mul 255#8 255#8 = 1#8 ∧ alu .mul 200#8 3#8 = 88#8 ∧
    alu .mul 0#8 77#8 = 0#8 ∧ alu .mul 1#8 77#8 = 77#8 ∧ alu .mul 128#8 2#8 = 0#8 ∧ alu .mul 17#8 15#8 = 255#8

/-! ### The handlers: results and completion -/

/-- HLT clears the Running flag and changes nothing else, from every state (R140). -/
def Obligations.HltHandlerCompletes : Prop :=
  ∀ s : State, exec .hlt s = .next { s with running := false }

/-- LDI of a valid register writes the immediate to it and changes nothing else (R145). -/
def Obligations.LdiHandlerCompletes : Prop :=
  ∀ (s : State) (a b : Byte) (h : a.toNat < 8),
    exec (.ldi a b) s = .next { s with regs := s.regs.set ⟨a.toNat, h⟩ b }

/-- PRN of a valid register appends its value to the output and changes nothing else (R150). -/
def Obligations.PrnHandlerCompletes : Prop :=
  ∀ (s : State) (a : Byte) (h : a.toNat < 8),
    exec (.prn a) s = .next { s with out := s.out ++ [s.regs.get ⟨a.toNat, h⟩] }

/-- MUL of valid registers writes the low 8 bits of the product of their old values to the first and changes nothing else
(R160, R161). -/
def Obligations.MulHandlerCompletes : Prop :=
  ∀ (s : State) (a b : Byte) (ha : a.toNat < 8) (hb : b.toNat < 8),
    exec (.mul a b) s = .next { s with
      regs := s.regs.set ⟨a.toNat, ha⟩ (s.regs.get ⟨a.toNat, ha⟩ * s.regs.get ⟨b.toNat, hb⟩) }

/-- PUSH of a valid register decrements the stack pointer modulo 256, stores the register, or for R7 the decremented
pointer, where the pointer then points, and changes nothing else (R166, R167; wrapping is the spec's decision D3, log
entry 5, and the value stored for R7 its decision D17, log entry 10). -/
def Obligations.PushHandlerCompletes : Prop :=
  ∀ (s : State) (a : Byte) (h : a.toNat < 8),
    exec (.push a) s = .next { s with
      regs := s.regs.set 7 (s.regs.get 7 - 1#8)
      mem := s.mem.set (s.regs.get 7 - 1#8).toNat
        (if a = 7#8 then s.regs.get 7 - 1#8 else s.regs.get ⟨a.toNat, h⟩) }

/-- POP into a valid register reads the byte the stack pointer addresses, writes it to the register and increments the
pointer modulo 256; into R7 it leaves the byte plus one; no memory cell changes (R168, R169; wrapping is the spec's
decision D3, log entry 5, and R7 its decision D17, log entry 10). -/
def Obligations.PopHandlerCompletes : Prop :=
  ∀ (s : State) (a : Byte) (h : a.toNat < 8),
    exec (.pop a) s = .next { s with
      regs :=
        if a = 7#8 then s.regs.set 7 (s.mem.get (s.regs.get 7).toNat + 1#8)
        else (s.regs.set ⟨a.toNat, h⟩ (s.mem.get (s.regs.get 7).toNat)).set 7 (s.regs.get 7 + 1#8) }

/-- An instruction that names a register above R7 takes `OutOfBounds`: the run state and the fault reason change and
nothing else, PUSH's stack pointer included (R23, R24, R182, R184; precision is the spec's decision D6, log entry 9). -/
def Obligations.BadRegisterIndexTakesOutOfBounds : Prop :=
  ∀ (i : Instr) (s : State), i.wellFormed = false →
    exec i s = .next { s with runState := .faulted, faultReason := some .outOfBounds }

/-- Every well-formed instruction completes from every state, and completing it leaves `pc`, the run state and the fault
reason to the loop: of the causes of R182 a handler has the register index alone (R26, R167, R169, R182). That PUSH at 0x00
and POP at 0xFF complete too is the spec's decision D3 (DESIGN CHOICE, log entry 5). -/
def Obligations.WellFormedInstructionsComplete : Prop :=
  ∀ (i : Instr) (s : State), i.wellFormed = true →
    ∃ t, exec i s = .next t ∧ t.pc = s.pc ∧ t.runState = s.runState ∧ t.faultReason = s.faultReason

/-! ### Frames -/

/-- An instruction changes no register but those R25 lists for it: LDI, MUL and POP their destination, PUSH and POP the
stack pointer (R22, R25). -/
def Obligations.OnlyListedRegistersChange : Prop :=
  ∀ (i : Instr) (s t : State), exec i s = .next t → ∀ r : Fin 8, regByte r ∉ writtenRegs i → t.regs.get r = s.regs.get r

/-- An instruction changes no byte of memory but the one PUSH stores to, at the stack pointer decremented; HLT, LDI, PRN,
MUL and POP store nothing (R53, R65, R166). -/
def Obligations.OnlyTheStoredByteChanges : Prop :=
  ∀ (i : Instr) (s t : State), exec i s = .next t → ∀ a, storeAddress i s ≠ some a → t.mem.get a = s.mem.get a

/-- No handler writes `pc`; HLT alone writes the Running flag; PRN alone writes the output; a well-formed instruction
leaves the run state and the fault reason, since of the causes of R182 a handler has the register index alone (R26, R28,
R31, R34, R182). That PUSH at 0x00 and POP at 0xFF raise nothing is the spec's decision D3 (DESIGN CHOICE, log entry 5). -/
def Obligations.ControlStateFrame : Prop :=
  ∀ (i : Instr) (s t : State), exec i s = .next t →
    t.pc = s.pc ∧ (i ≠ .hlt → t.running = s.running) ∧ ((∀ a, i ≠ .prn a) → t.out = s.out) ∧
      (i.wellFormed = true → t.runState = s.runState ∧ t.faultReason = s.faultReason)

/-! ### The cycle -/

/-- When the bytes at `pc` decode to an instruction, the step is that instruction's handler in the state marked Running,
and then: after a fault nothing more, after HLT the run state becomes `halted` and `pc` stays, otherwise `pc` moves past
the instruction's bytes (R111 to R119). That an instruction whose own bytes exist runs at 254 and 255, HLT at 255 and
PRN at 254 among them, is FETCH_POLICY by_count, the spec's decision D2 (DESIGN CHOICE, log entry 4). That bytes past
address 255 do not exist for a fetch, and that `pc` may move on to 256, is its decision D1 (R27; DESIGN CHOICE, log
entry 3). -/
def Obligations.StepRunsDecodedInstruction : Prop :=
  ∀ (s : State) (d : Decoded), s.canCycle → decode s.window = .ok d →
    ∃ t, exec d.instr { s with runState := .running } = .next t ∧
      (t.runState = .faulted → step s = .next t) ∧
      (t.runState ≠ .faulted → t.running = false → step s = .next { t with runState := .halted }) ∧
      (t.runState ≠ .faulted → t.running = true →
        step s = .next { t with pc := t.pc + BitVec.ofNat 9 (encode d.instr).length })

/-- A cycle that starts with `pc` at 256 or above takes `OutOfBounds` at the opcode fetch, `pc` unchanged (R112, R27;
the 9-bit counter that does not wrap is the spec's decision D1, DESIGN CHOICE, log entry 3; that a fault changes nothing
else its decision D6, log entry 9). -/
def Obligations.FetchPastTheTopFaults : Prop :=
  ∀ s : State, s.canCycle → 256 ≤ s.pc.toNat →
    step s = .next { s with runState := .faulted, faultReason := some .outOfBounds }

/-- An opcode that is none of the six takes `IllegalInstruction`, with `pc`, every register, every memory cell and the
output unchanged, at every address 0 to 255 (R114). At 254 and 255 it is this fault and not `OutOfBounds` by
FETCH_POLICY by_count (R115, R185), the spec's decision D2 (DESIGN CHOICE, log entry 4); that no other opcode has a
handler is its decision D9 (DESIGN CHOICE, log entry 12). -/
def Obligations.IllegalOpcodeFaults : Prop :=
  ∀ s : State, s.canCycle → s.pc.toNat < 256 →
    s.mem.get s.pc.toNat ∉ [0x01#8, 0x82#8, 0x47#8, 0xA2#8, 0x45#8, 0x46#8] →
    step s = .next { s with runState := .faulted, faultReason := some .illegalInstruction }

/-- The HLT cycle (R140). The handler raises nothing. The Running flag is cleared, the run state becomes `halted`, `pc`
stays at the HLT, nothing else changes, at every address 0 to 255 whatever follows; and no cycle runs after it (R110).
At 254 and 255, where the two bytes after the HLT do not both exist, it halts by FETCH_POLICY by_count (R116), the
spec's decision D2 (DESIGN CHOICE, log entry 4); that the machine then has no step, as an outcome of the step, is the
model's choice (DEDUCED, log entry 2). -/
def Obligations.HltCycle : Prop :=
  encode .hlt = [0x01#8] ∧ decodeFields 0x01#8 = ⟨0#2, false, false⟩ ∧
  (∀ s : State, exec .hlt s = .next { s with running := false }) ∧
  ∀ s : State, s.canCycle → s.pc.toNat < 256 → s.mem.get s.pc.toNat = 0x01#8 →
    step s = .next { s with running := false, runState := .halted } ∧
      step { s with running := false, runState := .halted } = .fault .noStepAfterHalt

/-- The LDI cycle (R145), with its encoding, its result, its `pc`, and both its faults. The Running flag is true in
every state that can cycle and is reachable (R38). That `pc` plus 3 may be 256, and that an operand byte past address
255 faults and is not read at 0, is the spec's decision D1 (R27; DESIGN CHOICE, log entry 3); that a fault changes
nothing else is its decision D6 (log entry 9). -/
def Obligations.LdiCycle : Prop :=
  (∀ a b, encode (.ldi a b) = [0x82#8, a, b]) ∧ decodeFields 0x82#8 = ⟨2#2, false, false⟩ ∧
  ∀ s : State, s.canCycle → s.running = true → s.mem.get s.pc.toNat = 0x82#8 →
    (s.pc.toNat ≤ 253 →
      (∀ h : (s.mem.get (s.pc.toNat + 1)).toNat < 8,
        step s = .next { s with
          regs := s.regs.set ⟨_, h⟩ (s.mem.get (s.pc.toNat + 2)), pc := s.pc + 3#9, runState := .running }) ∧
      (7 < (s.mem.get (s.pc.toNat + 1)).toNat →
        step s = .next { s with runState := .faulted, faultReason := some .outOfBounds })) ∧
    (s.pc.toNat = 254 ∨ s.pc.toNat = 255 →
      step s = .next { s with runState := .faulted, faultReason := some .outOfBounds })

/-- The PRN cycle (R150), with its encoding, its result, its `pc`, and both its faults. That PRN at 254 runs is
FETCH_POLICY by_count (R116), the spec's decision D2 (DESIGN CHOICE, log entry 4). That `pc` plus 2 may be 256, and that
an operand byte past address 255 faults and is not read at 0, is the spec's decision D1 (R27; DESIGN CHOICE, log entry
3); that a fault changes nothing else is its decision D6 (log entry 9). -/
def Obligations.PrnCycle : Prop :=
  (∀ a, encode (.prn a) = [0x47#8, a]) ∧ decodeFields 0x47#8 = ⟨1#2, false, false⟩ ∧
  ∀ s : State, s.canCycle → s.running = true → s.mem.get s.pc.toNat = 0x47#8 →
    (s.pc.toNat ≤ 254 →
      (∀ h : (s.mem.get (s.pc.toNat + 1)).toNat < 8,
        step s = .next { s with
          out := s.out ++ [s.regs.get ⟨_, h⟩], pc := s.pc + 2#9, runState := .running }) ∧
      (7 < (s.mem.get (s.pc.toNat + 1)).toNat →
        step s = .next { s with runState := .faulted, faultReason := some .outOfBounds })) ∧
    (s.pc.toNat = 255 → step s = .next { s with runState := .faulted, faultReason := some .outOfBounds })

/-- The MUL cycle (R160), with its encoding, its result, its `pc`, and all its faults. That `pc` plus 3 may be 256, and
that an operand byte past address 255 faults and is not read at 0, is the spec's decision D1 (R27; DESIGN CHOICE, log
entry 3); that a fault changes nothing else is its decision D6 (log entry 9). -/
def Obligations.MulCycle : Prop :=
  (∀ a b, encode (.mul a b) = [0xA2#8, a, b]) ∧ decodeFields 0xA2#8 = ⟨2#2, true, false⟩ ∧
  ∀ s : State, s.canCycle → s.running = true → s.mem.get s.pc.toNat = 0xA2#8 →
    (s.pc.toNat ≤ 253 →
      (∀ (ha : (s.mem.get (s.pc.toNat + 1)).toNat < 8) (hb : (s.mem.get (s.pc.toNat + 2)).toNat < 8),
        step s = .next { s with
          regs := s.regs.set ⟨_, ha⟩ (alu .mul (s.regs.get ⟨_, ha⟩) (s.regs.get ⟨_, hb⟩)),
          pc := s.pc + 3#9, runState := .running }) ∧
      (7 < (s.mem.get (s.pc.toNat + 1)).toNat ∨ 7 < (s.mem.get (s.pc.toNat + 2)).toNat →
        step s = .next { s with runState := .faulted, faultReason := some .outOfBounds })) ∧
    (s.pc.toNat = 254 ∨ s.pc.toNat = 255 →
      step s = .next { s with runState := .faulted, faultReason := some .outOfBounds })

/-- The PUSH cycle (R166, R167): result, `pc` and both faults. The order of the index check and the decrement is the
spec's decision D6 (log entry 9), wrapping D3 (log entry 5), the value stored for R7 D17 (log entry 10). That PUSH at
254 runs is FETCH_POLICY by_count (R116), D2 (DESIGN CHOICE, log entry 4). That `pc` plus 2 may be 256, and that an
operand byte past address 255 faults and is not read at 0, is its decision D1 (R27; DESIGN CHOICE, log entry 3). -/
def Obligations.PushCycle : Prop :=
  ∀ s : State, s.canCycle → s.running = true → s.mem.get s.pc.toNat = 0x45#8 →
    (s.pc.toNat ≤ 254 →
      (∀ h : (s.mem.get (s.pc.toNat + 1)).toNat < 8,
        step s = .next { s with
          regs := s.regs.set 7 (s.regs.get 7 - 1#8),
          mem := s.mem.set (s.regs.get 7 - 1#8).toNat
            (if s.mem.get (s.pc.toNat + 1) = 7#8 then s.regs.get 7 - 1#8 else s.regs.get ⟨_, h⟩),
          pc := s.pc + 2#9, runState := .running }) ∧
      (7 < (s.mem.get (s.pc.toNat + 1)).toNat →
        step s = .next { s with runState := .faulted, faultReason := some .outOfBounds })) ∧
    (s.pc.toNat = 255 → step s = .next { s with runState := .faulted, faultReason := some .outOfBounds })

/-- The POP cycle (R168, R169): result, `pc` and both faults. Wrapping is the spec's decision D3 (log entry 5), POP into
R7 its decision D17 (log entry 10). That POP at 254 runs is FETCH_POLICY by_count (R116), its decision D2 (DESIGN
CHOICE, log entry 4). That `pc` plus 2 may be 256, and that an operand byte past address 255 faults and is not read at
0, is its decision D1 (R27; DESIGN CHOICE, log entry 3). That a fault changes nothing else is its decision D6 (log entry
9). -/
def Obligations.PopCycle : Prop :=
  ∀ s : State, s.canCycle → s.running = true → s.mem.get s.pc.toNat = 0x46#8 →
    (s.pc.toNat ≤ 254 →
      (∀ h : (s.mem.get (s.pc.toNat + 1)).toNat < 8,
        step s = .next { s with
          regs :=
            if s.mem.get (s.pc.toNat + 1) = 7#8 then s.regs.set 7 (s.mem.get (s.regs.get 7).toNat + 1#8)
            else (s.regs.set ⟨_, h⟩ (s.mem.get (s.regs.get 7).toNat)).set 7 (s.regs.get 7 + 1#8),
          pc := s.pc + 2#9, runState := .running }) ∧
      (7 < (s.mem.get (s.pc.toNat + 1)).toNat →
        step s = .next { s with runState := .faulted, faultReason := some .outOfBounds })) ∧
    (s.pc.toNat = 255 → step s = .next { s with runState := .faulted, faultReason := some .outOfBounds })

/-- A cycle runs exactly when the run state is `Ready` or `Running`; in `Halted` and in `Faulted` the step has no successor
and stops by name (R110; that the stop is an outcome of the step is the model's choice, log entry 2). -/
def Obligations.CycleRunsExactlyWhenNotEnded : Prop :=
  (∀ s : State, (∃ t, step s = .next t) ↔ s.canCycle) ∧
    (∀ s : State, s.runState = .halted → step s = .fault .noStepAfterHalt) ∧
    (∀ s : State, s.runState = .faulted → step s = .fault .noStepAfterFault)

/-- The first cycle from `Ready` is the cycle from the same state marked `Running`, and no cycle ends in `Ready` (R29,
R111). -/
def Obligations.FirstCycleLeavesReady : Prop :=
  (∀ s : State, s.runState = .ready → step s = step { s with runState := .running }) ∧
    (∀ s t : State, step s = .next t → t.runState ≠ .ready)

/-! ### The whole machine -/

/-- The invariant holds after reset (R36, R38). -/
def Obligations.ResetMeetsInvariant : Prop := State.reset.Inv

/-- Every step keeps the invariant: memory in canonical form, the Running flag false exactly in `Halted`, `pc` at most
258, a fault reason exactly in `Faulted` (R38). That `pc` reaches 256 to 258 and stays there is the spec's decision D1
(DESIGN CHOICE, log entry 3). That a fault leaves the Running flag true is its decision D16 (DESIGN CHOICE, log entry
11). -/
def Obligations.StepKeepsInvariant : Prop :=
  ∀ s t : State, s.Inv → step s = .next t → t.Inv

/-- Every run ends within 129 cycles, from every state and whatever memory holds, a program that overwrites itself
included (R124). That a fetch at 256 or above ends the run is the spec's decision D1 (DESIGN CHOICE, log entry 3). -/
def Obligations.EveryRunEndsWithin129Cycles : Prop :=
  ∀ s : State, ∃ k t, k ≤ 129 ∧ Sys2Proof.core.run k s = .next t ∧ t.ended = true ∧ runFuel 129 s = t

/-- A cycle that ends in a fault changes the run state and the fault reason and nothing else (R122, R184; the spec's
decision D6, log entry 9). -/
def Obligations.FaultsArePrecise : Prop :=
  ∀ s t : State, step s = .next t → t.runState = .faulted →
    t.faultReason.isSome = true ∧ t = { s with runState := .faulted, faultReason := t.faultReason }

/-- The causes of R182 and the priority of R185: a cycle ends in `IllegalInstruction` exactly when the opcode at an
existing `pc` has no handler, in `OutOfBounds` exactly when `pc` does not exist, or a byte of a legal instruction does not,
or one of its register operands is above 7; and it ends in no other fault. That a `pc` of 256 or above does not wrap is the
spec's decision D1 (DESIGN CHOICE, log entry 3); that only the bytes the opcode asks for count, after the dispatch check,
is FETCH_POLICY by_count, D2 (DESIGN CHOICE, log entry 4); that R182's last cause, PUSH at 0x00 and POP at 0xFF, is none
here is SP_POLICY wrap, D3 (DESIGN CHOICE, log entry 5). -/
def Obligations.FaultCauses : Prop :=
  ∀ s t : State, step s = .next t →
    ((t.runState = .faulted ∧ t.faultReason = some .illegalInstruction) ↔
      (s.pc.toNat < 256 ∧ findHandler (s.mem.get s.pc.toNat) = none)) ∧
    ((t.runState = .faulted ∧ t.faultReason = some .outOfBounds) ↔
      (256 ≤ s.pc.toNat ∨
        (findHandler (s.mem.get s.pc.toNat) ≠ none ∧
          256 ≤ s.pc.toNat + (decodeFields (s.mem.get s.pc.toNat)).operandCount.toNat) ∨
        (∃ d, decode s.window = .ok d ∧ d.instr.wellFormed = false))) ∧
    (t.runState = .faulted → t.faultReason = some .illegalInstruction ∨ t.faultReason = some .outOfBounds)

/-- A cycle removes nothing from the output and adds at most one element, and adds one only when the opcode is PRN's
(R31, R38, R150, R152). -/
def Obligations.OutputOnlyGrows : Prop :=
  ∀ s t : State, step s = .next t →
    t.out = s.out ∨ (s.mem.get s.pc.toNat = 0x47#8 ∧ ∃ v, t.out = s.out ++ [v])

/-- The run ends well only by executing HLT, and then `pc` is the address of that HLT (R123, R141). -/
def Obligations.OnlyHltEndsWell : Prop :=
  ∀ s t : State, s.Inv → step s = .next t → t.goodEnd →
    s.pc.toNat < 256 ∧ s.mem.get s.pc.toNat = 0x01#8 ∧ t.pc = s.pc

/-- A cycle that does not end the run advances `pc` by one more than the operand count, as exact integers, that is by 2 or
by 3: control only moves forward (R119, R120, R124). That the sum never wraps is the spec's decision D1 (DESIGN CHOICE, log
entry 3). -/
def Obligations.PcAdvancesByTheInstructionLength : Prop :=
  ∀ s t : State, step s = .next t → t.runState = .running →
    t.pc.toNat = s.pc.toNat + 1 + (decodeFields (s.mem.get s.pc.toNat)).operandCount.toNat ∧
      (t.pc.toNat = s.pc.toNat + 2 ∨ t.pc.toNat = s.pc.toNat + 3)

/-- Memory changes in a cycle only when the opcode is PUSH's, and then in at most the one cell below the stack pointer
(R53, R223). -/
def Obligations.OnlyPushWritesMemory : Prop :=
  ∀ s t : State, step s = .next t →
    (s.mem.get s.pc.toNat ≠ 0x45#8 → t.mem = s.mem) ∧
      (∀ a, a ≠ (s.regs.get 7 - 1#8).toNat → t.mem.get a = s.mem.get a)

/-- A PUSH of one register and the POP of another right after it, the PUSH not overwriting the POP's own bytes: the
value arrives, the stack pointer is back, also across the wrap at 0, and one memory cell has changed (R171). That PUSH
at 0x00 and POP at 0xFF wrap is the spec's decision D3 (DESIGN CHOICE, log entry 5). With `pc` at 252 the POP stands at
254, and that it runs there is FETCH_POLICY by_count (R116), its decision D2 (DESIGN CHOICE, log entry 4). That `pc`
then ends at 256 is its decision D1 (DESIGN CHOICE, log entry 3). -/
def Obligations.PushThenPopRoundTrip : Prop :=
  ∀ (s : State) (a c : Byte) (ha : a.toNat < 7) (hc : c.toNat < 7),
    s.canCycle → s.running = true → s.mem.wf = true → s.pc.toNat ≤ 252 →
    s.mem.get s.pc.toNat = 0x45#8 → s.mem.get (s.pc.toNat + 1) = a →
    s.mem.get (s.pc.toNat + 2) = 0x46#8 → s.mem.get (s.pc.toNat + 3) = c →
    (s.regs.get 7 - 1#8).toNat ≠ s.pc.toNat + 2 → (s.regs.get 7 - 1#8).toNat ≠ s.pc.toNat + 3 →
    Sys2Proof.core.run 2 s = .next { s with
      regs := s.regs.set ⟨c.toNat, Nat.lt_succ_of_lt hc⟩ (s.regs.get ⟨a.toNat, Nat.lt_succ_of_lt ha⟩)
      mem := s.mem.set (s.regs.get 7 - 1#8).toNat (s.regs.get ⟨a.toNat, Nat.lt_succ_of_lt ha⟩)
      pc := s.pc + 4#9
      runState := .running }

/-- Stack order: pushing up to 256 registers and popping as often, printing each byte popped, prints the pushed values in
reverse order, and the stack pointer is back where it was (R165, R172). The handlers alone, no fetch between them. That the
pushes complete from any stack pointer is the spec's decision D3 (DESIGN CHOICE, log entry 5). -/
def Obligations.StackReversesOrder : Prop :=
  ∀ (rs : List (Fin 8)) (c : Fin 8) (s : State), rs.length ≤ 256 → 7 ∉ rs → c ≠ 7 → s.mem.wf = true →
    ∃ t, execAll (rs.map (fun r => Instr.push (regByte r)) ++
        rs.flatMap (fun _ => [Instr.pop (regByte c), Instr.prn (regByte c)])) s = .next t ∧
      t.out = s.out ++ (rs.map s.regs.get).reverse ∧ t.regs.get 7 = s.regs.get 7

/-- Instruction-fetch coherence: a PUSH into the cell the next cycle fetches its opcode from is seen by that fetch; where
the byte pushed is HLT's, the next cycle halts (R63, R118, R140). With the PUSH at 252 or 253 the HLT stands at 254 or 255,
and that it runs there is FETCH_POLICY by_count, the spec's decision D2 (DESIGN CHOICE, log entry 4); with the stack
pointer at 0x00 the PUSH wraps, its decision D3 (DESIGN CHOICE, log entry 5). -/
def Obligations.FetchSeesThePush : Prop :=
  ∀ (s : State) (a : Byte) (ha : a.toNat < 7),
    s.canCycle → s.running = true → s.mem.wf = true → s.pc.toNat ≤ 253 →
    s.mem.get s.pc.toNat = 0x45#8 → s.mem.get (s.pc.toNat + 1) = a →
    (s.regs.get 7 - 1#8).toNat = s.pc.toNat + 2 →
    ∃ t, step s = .next t ∧ memRead t.pc.toNat t = .ok (s.regs.get ⟨a.toNat, Nat.lt_succ_of_lt ha⟩) ∧
      (s.regs.get ⟨a.toNat, Nat.lt_succ_of_lt ha⟩ = 0x01#8 →
        step t = .next { t with running := false, runState := .halted })

/-- A run emits at most 128 elements, whatever it starts from (R124, R150). That a fetch at 256 or above ends the run is the
spec's decision D1 (DESIGN CHOICE, log entry 3). -/
def Obligations.RunEmitsAtMost128Elements : Prop :=
  ∀ s : State, ∃ vs, (run s).out = s.out ++ vs ∧ vs.length ≤ 128

/-! ### The open parameters -/

/-- The machine under the parameter values this hardware takes is the machine of this model (R8). The values are the
spec's decisions D2, D3 and D5 (DESIGN CHOICE, log entries 4, 5, 6). -/
def Obligations.HardwareIsItsConfiguration : Prop :=
  ∀ s : State, stepUnder Config.hardware s = step s

/-- The two fetch policies differ only where an opcode is fetched at address 254 or 255 (R126). -/
def Obligations.FetchPoliciesAgreeBelow254 : Prop :=
  ∀ (c : Config) (s : State), s.pc.toNat ≠ 254 → s.pc.toNat ≠ 255 →
    stepUnder { c with fetchPolicy := .alwaysTwo } s = stepUnder { c with fetchPolicy := .byCount } s

/-- Under `always_two` every opcode at address 254 or 255, legal or not, takes `OutOfBounds` (R126). That an operand
byte past address 255 faults and is not read at 0 is the spec's decision D1 (DESIGN CHOICE, log entry 3). -/
def Obligations.AlwaysTwoFaultsAtTheTop : Prop :=
  ∀ (c : Config) (s : State), s.canCycle → c.fetchPolicy = .alwaysTwo → s.pc.toNat = 254 ∨ s.pc.toNat = 255 →
    stepUnder c s = .next { s with runState := .faulted, faultReason := some .outOfBounds }

/-- The two stack pointer policies differ only where PUSH meets 0x00 and POP meets 0xFF; there `fault` takes `OutOfBounds`
before anything is written (R170). -/
def Obligations.StackPoliciesDifferOnlyAtTheEnds : Prop :=
  (∀ (i : Instr) (s : State), ((∃ a, i = .push a) → s.regs.get 7 ≠ 0x00#8) → ((∃ a, i = .pop a) → s.regs.get 7 ≠ 0xFF#8) →
      execUnder .fault i s = execUnder .wrap i s) ∧
    (∀ (a : Byte) (s : State), s.regs.get 7 = 0x00#8 →
      execUnder .fault (.push a) s = .next { s with runState := .faulted, faultReason := some .outOfBounds }) ∧
    (∀ (a : Byte) (s : State), s.regs.get 7 = 0xFF#8 →
      execUnder .fault (.pop a) s = .next { s with runState := .faulted, faultReason := some .outOfBounds })

/-! ### The host interface -/

/-- `load` of at most 256 bytes in `Ready`, the first since reset: byte `i` goes to cell `i`, every other cell, every
register, `pc`, the control state and the output stay (R212; the spec's decision D10, log entry 13). -/
def Obligations.LoadPlacesBytesFromAddressZero : Prop :=
  ∀ (h : Session) (bytes : List Byte), h.machine.runState = .ready → h.loadPhase = .notLoaded →
    h.machine.mem.wf = true → bytes.length ≤ 256 →
    ∃ t, h.load bytes = (⟨t, .loaded⟩, .accepted) ∧
      (∀ i, t.mem.get i = if hi : i < bytes.length then bytes[i] else h.machine.mem.get i) ∧
      t = { h.machine with mem := t.mem } ∧ t.mem.wf = true

/-- `load` of more than 256 bytes fails with `OutOfBounds`, places nothing, and no cycle may run after it; a load outside
`Ready` and a second load are refused and change nothing (R213; the spec's decision D10, log entry 13). -/
def Obligations.LoadFailsOrIsRefused : Prop :=
  ∀ (h : Session) (bytes : List Byte),
    (h.machine.runState = .ready → h.loadPhase = .notLoaded → 256 < bytes.length →
      (h.load bytes).2 = .failed .outOfBounds ∧ (h.load bytes).1.machine = h.machine ∧
        (h.load bytes).1.cycle = .refused .loadFailed) ∧
    (h.machine.runState = .ready → h.loadPhase ≠ .notLoaded → h.load bytes = (h, .refused .secondLoad)) ∧
    (h.machine.runState ≠ .ready → h.load bytes = (h, .refused .notReady))

/-- Step budgets (R215): a run cut short after `j` cycles and continued with `k` more is the run of `j + k`; continued
to the end it ends as the uncut run does; a budget of 129 or more cuts no run short; and a run cut short after at least
one cycle and not ended is left in `Running`. That a run ends within 129 cycles rests on the fetch at 256 or above that
ends it, the spec's decision D1 (DESIGN CHOICE, log entry 3). -/
def Obligations.BudgetedRunsContinue : Prop :=
  (∀ (j k : Nat) (s : State), runFuel (j + k) s = runFuel k (runFuel j s)) ∧
    (∀ (j : Nat) (s : State), run (runFuel j s) = run s) ∧
    (∀ (n : Nat) (s : State), 129 ≤ n → (runFuel n s).ended = true ∧ runFuel n s = run s) ∧
    (∀ (j : Nat) (s : State), 0 < j → (runFuel j s).ended = false → (runFuel j s).runState = .running)

/-- `run()` from a state of the invariant reports: success exactly when the run ended in `Halted`, the recorded fault
reason when it ended in `Faulted`; on an ended machine it executes no cycle and reports the same again (R125, R214).
That every run ends rests on the fetch at 256 or above that ends it, the spec's decision D1 (DESIGN CHOICE, log entry
3). That success carries nothing is its decision D20 (DESIGN CHOICE, log entry 20). -/
def Obligations.RunReportsHowItEnded : Prop :=
  ∀ s : State, s.Inv →
    ((run s).goodEnd ∧ (run s).exitStatus = some (.ok ()) ∨
      ∃ k, (run s).runState = .faulted ∧ (run s).faultReason = some k ∧ (run s).exitStatus = some (.error k)) ∧
    (s.ended = true → run s = s)

/-- The rendering of an element is the decimal digits of its value, at least one, without a leading zero, the value 0 as
the single digit `0`, and then one line feed (R151; that the newline is 0x0A is general knowledge, and the spec's
decision D11, PRESUMED, log entry 14). -/
def Obligations.RenderingIsDecimal : Prop :=
  ∀ v : Byte,
    renderElement v = decimal v ++ [Char.ofNat 10] ∧
    (decimal v).foldl (fun n c => 10 * n + (c.toNat - 48)) 0 = v.toNat ∧
    (∀ c ∈ decimal v, 48 ≤ c.toNat ∧ c.toNat ≤ 57) ∧
    decimal v ≠ [] ∧
    ((decimal v).head? = some (Char.ofNat 48) → v = 0#8 ∧ decimal v = [Char.ofNat 48]) ∧
    (v = 0#8 → decimal v = [Char.ofNat 48])
end

