-- ==== Sys2Proof/Laws/Memory.lean ====
section
/-! SUPPORT. The laws of the register file and of the memory: what a read after a write gives (rules R37, R65), and that
every memory operation keeps the canonical form. -/

namespace Sys2Proof.Machine

@[simp] theorem trunc8_toNat (v : Byte) : trunc8 v.toNat = v := by simp [trunc8]

/-! ### Registers -/

@[simp] theorem get_set_same (r : RegFile) (i : Fin 8) (v : Byte) : (r.set i v).get i = v := by
  fin_cases i <;> rfl

theorem get_set_ne (r : RegFile) (i j : Fin 8) (v : Byte) (h : j ≠ i) : (r.set i v).get j = r.get j := by
  fin_cases i <;> fin_cases j <;> first | rfl | exact absurd rfl h

theorem get_set (r : RegFile) (i j : Fin 8) (v : Byte) : (r.set i v).get j = if j = i then v else r.get j := by
  by_cases h : j = i
  · subst h; simp
  · simp [h, get_set_ne r i j v h]

/-! ### Memory -/

theorem wfFrom_mono (m : Memory) (lo lo' : Nat) (hle : lo' ≤ lo) (h : Memory.wfFrom lo m = true) :
    Memory.wfFrom lo' m = true := by
  cases m with
  | nil => rfl
  | cons c m => simp only [Memory.wfFrom, Bool.and_eq_true, decide_eq_true_eq] at h ⊢; exact ⟨⟨⟨by omega, h.1.1.2⟩, h.1.2⟩, h.2⟩

/-- Below the first address a canonical list may hold, every cell reads `memReset`. -/
theorem get_of_lt (m : Memory) (lo a : Nat) (h : Memory.wfFrom lo m = true) (ha : a < lo) : m.get a = memReset := by
  induction m generalizing lo with
  | nil => rfl
  | cons c m ih =>
    simp only [Memory.wfFrom, Bool.and_eq_true, decide_eq_true_eq] at h
    rw [Memory.get, if_neg (by omega)]
    exact ih (c.1 + 1) h.2 (by omega)

/-- A write changes no other cell (R65), whatever the form of the list. -/
theorem mem_get_set_ne (m : Memory) (a b : Nat) (v : Byte) (h : b ≠ a) : (m.set a v).get b = m.get b := by
  induction m with
  | nil => by_cases hv : v = memReset <;> simp [Memory.set, Memory.get, hv, h]
  | cons c m ih =>
    rw [Memory.set]
    split
    · split
      · rfl
      · simp [Memory.get, h]
    · split
      · subst_vars
        split <;> simp [Memory.get, h]
      · simp [Memory.get, ih]

/-- A read after a write gives the value written (R65). -/
theorem mem_get_set_same (m : Memory) (a lo : Nat) (v : Byte) (hm : Memory.wfFrom lo m = true) :
    (m.set a v).get a = v := by
  induction m generalizing lo with
  | nil => by_cases hv : v = memReset <;> simp [Memory.set, Memory.get, hv]
  | cons c m ih =>
    simp only [Memory.wfFrom, Bool.and_eq_true, decide_eq_true_eq] at hm
    rw [Memory.set]
    split
    · split
      · next h hv =>
        rw [hv, Memory.get, if_neg (by omega)]
        exact get_of_lt m (c.1 + 1) a hm.2 (by omega)
      · simp [Memory.get]
    · split
      · next h =>
        split
        · next hv => rw [hv]; exact get_of_lt m (c.1 + 1) a hm.2 (by omega)
        · simp [Memory.get]
      · next h => rw [Memory.get, if_neg h]; exact ih (c.1 + 1) hm.2

theorem mem_get_set (m : Memory) (a b : Nat) (v : Byte) (hm : m.wf = true) :
    (m.set a v).get b = if b = a then v else m.get b := by
  by_cases h : b = a
  · subst h; simpa using mem_get_set_same m b 0 v hm
  · simpa [h] using mem_get_set_ne m a b v h

theorem wfFrom_set (m : Memory) (lo a : Nat) (v : Byte) (hm : Memory.wfFrom lo m = true) (hlo : lo ≤ a)
    (ha : a < memSize) : Memory.wfFrom lo (m.set a v) = true := by
  induction m generalizing lo with
  | nil => by_cases hv : v = memReset <;> simp_all [Memory.set, Memory.wfFrom]
  | cons c m ih =>
    have hc := hm
    simp only [Memory.wfFrom, Bool.and_eq_true, decide_eq_true_eq] at hm
    rw [Memory.set]
    split
    · next h =>
      split
      · exact hc
      · next hv =>
        simp only [Memory.wfFrom, Bool.and_eq_true, decide_eq_true_eq]
        exact ⟨⟨⟨hlo, ha⟩, hv⟩, ⟨⟨by omega, hm.1.1.2⟩, hm.1.2⟩, hm.2⟩
    · split
      · next h =>
        split
        · exact wfFrom_mono m _ _ (by omega) hm.2
        · next hv =>
          simp only [Memory.wfFrom, Bool.and_eq_true, decide_eq_true_eq]
          exact ⟨⟨⟨hlo, ha⟩, hv⟩, by rw [h]; exact hm.2⟩
      · next h1 h2 =>
        simp only [Memory.wfFrom, Bool.and_eq_true, decide_eq_true_eq]
        exact ⟨hm.1, ih (c.1 + 1) hm.2 (by omega)⟩

/-- A write keeps the canonical form. -/
theorem wf_set (m : Memory) (a : Nat) (v : Byte) (hm : m.wf = true) (ha : a < memSize) : (m.set a v).wf = true :=
  wfFrom_set m 0 a v hm (by omega) ha

/-- Placing bytes keeps the canonical form. -/
theorem wf_setMany (m : Memory) (a : Nat) (bs : List Byte) (hm : m.wf = true) : (m.setMany a bs).wf = true := by
  induction bs generalizing m a with
  | nil => exact hm
  | cons b bs ih =>
    rw [Memory.setMany]
    split
    · next h => exact ih _ _ (wf_set m a b hm h)
    · exact hm

/-- The memory after reset has the canonical form. -/
theorem wf_reset (g : ResetGpr) : (State.resetWith g).mem.wf = true := rfl

end Sys2Proof.Machine
end

