-- ==== Sys2Proof/Laws/Ops.lean ====
section
/-! SUPPORT. One lemma per shared operation that says once what it can do; the proofs cite these and do not unfold. -/

namespace Sys2Proof.Machine

/-! ### Operands -/

theorem regIndex_valid (b : Byte) (h : b.toNat < 8) : regIndex b = .ok ⟨b.toNat, h⟩ := by simp [regIndex, h]

theorem regIndex_invalid (b : Byte) (h : ¬ b.toNat < 8) : regIndex b = .error .outOfBounds := by simp [regIndex, h]

theorem readReg_valid (b : Byte) (s : State) (h : b.toNat < 8) : readReg b s = .ok (s.regs.get ⟨b.toNat, h⟩) := by
  simp [readReg, regIndex_valid b h, bind, Except.bind, pure, Except.pure]

theorem readReg_invalid (b : Byte) (s : State) (h : ¬ b.toNat < 8) : readReg b s = .error .outOfBounds := by
  simp [readReg, regIndex_invalid b h, bind, Except.bind]

theorem writeReg_valid (b : Byte) (v : Nat) (s : State) (h : b.toNat < 8) :
    writeReg b v s = .ok { s with regs := s.regs.set ⟨b.toNat, h⟩ (trunc8 v) } := by
  simp [writeReg, regIndex_valid b h, bind, Except.bind, pure, Except.pure]

theorem writeReg_invalid (b : Byte) (v : Nat) (s : State) (h : ¬ b.toNat < 8) :
    writeReg b v s = .error .outOfBounds := by
  simp [writeReg, regIndex_invalid b h, bind, Except.bind]

@[simp] theorem readReg_sp (s : State) : readReg spIndex s = .ok (s.regs.get 7) := rfl

@[simp] theorem writeReg_sp (v : Nat) (s : State) :
    writeReg spIndex v s = .ok { s with regs := s.regs.set 7 (trunc8 v) } := rfl

/-! ### Memory -/

theorem memRead_lt (addr : Nat) (s : State) (h : addr < memSize) : memRead addr s = .ok (s.mem.get addr) := by
  rw [memRead, if_neg (by omega)]

theorem memRead_ge (addr : Nat) (s : State) (h : memSize ≤ addr) : memRead addr s = .error .outOfBounds := by
  rw [memRead, if_pos h]

theorem memWrite_lt (addr v : Nat) (s : State) (h : addr < memSize) :
    memWrite addr v s = .ok { s with mem := s.mem.set addr (trunc8 v) } := by rw [memWrite, if_neg (by omega)]

theorem memWrite_ge (addr v : Nat) (s : State) (h : memSize ≤ addr) : memWrite addr v s = .error .outOfBounds := by
  rw [memWrite, if_pos h]

/-- A memory write that answers keeps the canonical form. -/
theorem memWrite_wf (addr v : Nat) (s t : State) (h : memWrite addr v s = .ok t) (hs : s.mem.wf = true) :
    t.mem.wf = true := by
  by_cases ha : addr < memSize
  · rw [memWrite_lt addr v s ha, Except.ok.injEq] at h
    rw [← h]
    exact wf_set _ _ _ hs ha
  · rw [memWrite_ge addr v s (by omega)] at h
    cases h

/-- Placing an instruction at the program counter keeps the canonical form. -/
theorem placeAtPc_wf (bs : List Byte) (s : State) (hs : s.mem.wf = true) : (placeAtPc bs s).mem.wf = true :=
  wf_setMany _ _ _ hs

/-- A stack address is the content of an 8-bit register, so it exists (R54). -/
theorem memRead_byte (b : Byte) (s : State) : memRead b.toNat s = .ok (s.mem.get b.toNat) :=
  memRead_lt _ _ b.isLt

theorem memWrite_byte (b : Byte) (v : Nat) (s : State) :
    memWrite b.toNat v s = .ok { s with mem := s.mem.set b.toNat (trunc8 v) } := memWrite_lt _ _ _ b.isLt

/-- Several reads answer when all their addresses exist, with the bytes there. -/
theorem memReadMany_lt (addr n : Nat) (s : State) (h : addr + n ≤ memSize) :
    memReadMany addr n s = .ok (s.mem.bytesFrom addr n) := by
  induction n generalizing addr with
  | zero => rfl
  | succ n ih =>
    simp [memReadMany, memRead_lt addr s (by omega), ih (addr + 1) (by omega), Memory.bytesFrom, bind, Except.bind, pure,
      Except.pure]
    omega

/-- Several reads raise `OutOfBounds` when one of their addresses does not exist. -/
theorem memReadMany_ge (addr n : Nat) (s : State) (hn : 0 < n) (h : memSize < addr + n) :
    memReadMany addr n s = .error .outOfBounds := by
  induction n generalizing addr with
  | zero => omega
  | succ n ih =>
    by_cases ha : addr < memSize
    · simp [memReadMany, memRead_lt addr s ha, ih (addr + 1) (by omega) (by omega), bind, Except.bind]
    · simp [memReadMany, memRead_ge addr s (by omega), bind, Except.bind]

theorem bytesFrom_length (m : Memory) (addr n : Nat) (h : addr + n ≤ memSize) : (m.bytesFrom addr n).length = n := by
  induction n generalizing addr with
  | zero => rfl
  | succ n ih => rw [Memory.bytesFrom, if_pos (by omega), List.length_cons, ih (addr + 1) (by omega)]

/-! ### How a handler ends -/

@[simp] theorem settle_ok (s t : State) : settle s (.ok t) = .next t := rfl
@[simp] theorem settle_error (s : State) (k : FaultKind) : settle s (.error k) = .next (s.raise k) := rfl

/-- A handler ends in a next state, by completing or by taking a fault. -/
theorem settle_cases (s : State) (r : Except FaultKind State) :
    (∃ t, r = .ok t ∧ settle s r = .next t) ∨ (∃ k, r = .error k ∧ settle s r = .next (s.raise k)) := by
  cases r with
  | ok t => exact .inl ⟨t, rfl, rfl⟩
  | error k => exact .inr ⟨k, rfl, rfl⟩

/-! ### The stack -/

@[simp] theorem stackCheck_wrap (last : Byte) (s : State) : stackCheck .wrap last s = .ok () := rfl

theorem stackCheck_fault (last : Byte) (s : State) :
    stackCheck .fault last s = if s.regs.get 7 = last then .error .outOfBounds else .ok () := rfl

theorem pushUnder_invalid (p : SpPolicy) (a : Byte) (s : State) (h : ¬ a.toNat < 8) :
    pushUnder p a s = .error .outOfBounds := by
  simp [pushUnder, regIndex_invalid a h, bind, Except.bind]

theorem popUnder_invalid (p : SpPolicy) (a : Byte) (s : State) (h : ¬ a.toNat < 8) :
    popUnder p a s = .error .outOfBounds := by
  simp [popUnder, regIndex_invalid a h, bind, Except.bind]

/-- PUSH of a valid register, its stack check passed. -/
theorem pushUnder_valid (p : SpPolicy) (a : Byte) (s : State) (h : a.toNat < 8) (hc : stackCheck p 0x00#8 s = .ok ()) :
    pushUnder p a s = .ok { s with
      regs := s.regs.set 7 (s.regs.get 7 - 1#8)
      mem := s.mem.set (s.regs.get 7 - 1#8).toNat
        ((s.regs.set 7 (s.regs.get 7 - 1#8)).get ⟨a.toNat, h⟩) } := by
  unfold pushUnder
  rw [regIndex_valid a h, hc]
  simp only [bind, Except.bind, readReg_sp, writeReg_sp, trunc8_toNat, readReg_valid a _ h, get_set_same, memWrite_byte]

/-- POP into a valid register, its stack check passed. -/
theorem popUnder_valid (p : SpPolicy) (a : Byte) (s : State) (h : a.toNat < 8) (hc : stackCheck p 0xFF#8 s = .ok ()) :
    popUnder p a s = .ok { s with
      regs := (s.regs.set ⟨a.toNat, h⟩ (s.mem.get (s.regs.get 7).toNat)).set 7
        ((s.regs.set ⟨a.toNat, h⟩ (s.mem.get (s.regs.get 7).toNat)).get 7 + 1#8) } := by
  unfold popUnder
  rw [regIndex_valid a h, hc]
  simp only [bind, Except.bind, readReg_sp, writeReg_sp, trunc8_toNat, memRead_byte, writeReg_valid a _ _ h]

/-! ### After the handler -/

theorem afterHandler_faulted (n : BitVec 2) (s : State) (h : s.runState = .faulted) : afterHandler n s = s := by
  simp [afterHandler, h]

theorem afterHandler_halted (n : BitVec 2) (s : State) (h : s.runState ≠ .faulted) (hr : s.running = false) :
    afterHandler n s = { s with runState := .halted } := by simp [afterHandler, h, hr]

theorem afterHandler_advance (n : BitVec 2) (s : State) (h : s.runState ≠ .faulted) (hr : s.running = true) :
    afterHandler n s = { s with pc := s.pc + 1#9 + BitVec.ofNat 9 n.toNat } := by simp [afterHandler, h, hr]

end Sys2Proof.Machine
end

