-- ==== Sys2Proof/Laws/PerInstr.lean ====
section
/-! SUPPORT. Statements about every instruction as syntax, one lemma per constructor. -/

namespace Sys2Proof.Laws

/-- The generic length read off bits 7:6 of the opcode is the length of the instruction's own bytes, the `is_alu` bit marks
MUL alone, and `sets_pc` marks none (R87, R91). -/
def Length.Statement (i : Instr) : Prop :=
  (encode i).length = 1 + (decodeFields i.opcode).operandCount.toNat ∧
    ((decodeFields i.opcode).isAlu = true ↔ i.handler = .mul) ∧ (decodeFields i.opcode).setsPc = false

theorem Length.hlt : Length.Statement .hlt := by unfold Length.Statement; decide
theorem Length.ldi (a b : Byte) : Length.Statement (.ldi a b) := by
  simp only [Length.Statement, encode, Instr.operands, Instr.opcode, Instr.handler, Handler.opcode, List.length_cons, List.length_nil]; decide
theorem Length.prn (a : Byte) : Length.Statement (.prn a) := by
  simp only [Length.Statement, encode, Instr.operands, Instr.opcode, Instr.handler, Handler.opcode, List.length_cons, List.length_nil]; decide
theorem Length.mul (a b : Byte) : Length.Statement (.mul a b) := by
  simp only [Length.Statement, encode, Instr.operands, Instr.opcode, Instr.handler, Handler.opcode, List.length_cons, List.length_nil]; decide
theorem Length.push (a : Byte) : Length.Statement (.push a) := by
  simp only [Length.Statement, encode, Instr.operands, Instr.opcode, Instr.handler, Handler.opcode, List.length_cons, List.length_nil]; decide
theorem Length.pop (a : Byte) : Length.Statement (.pop a) := by
  simp only [Length.Statement, encode, Instr.operands, Instr.opcode, Instr.handler, Handler.opcode, List.length_cons, List.length_nil]; decide

end Sys2Proof.Laws
end

