-- ==== Sys2Proof/Laws/State.lean ====
section
/-! SUPPORT. One lemma per field per named update of the state, so that no proof unfolds a record update. -/

namespace Sys2Proof.Machine

/-! ### Taking a fault -/
@[simp] theorem raise_regs (k : FaultKind) (s : State) : (s.raise k).regs = s.regs := rfl
@[simp] theorem raise_pc (k : FaultKind) (s : State) : (s.raise k).pc = s.pc := rfl
@[simp] theorem raise_mem (k : FaultKind) (s : State) : (s.raise k).mem = s.mem := rfl
@[simp] theorem raise_running (k : FaultKind) (s : State) : (s.raise k).running = s.running := rfl
@[simp] theorem raise_runState (k : FaultKind) (s : State) : (s.raise k).runState = .faulted := rfl
@[simp] theorem raise_faultReason (k : FaultKind) (s : State) : (s.raise k).faultReason = some k := rfl
@[simp] theorem raise_out (k : FaultKind) (s : State) : (s.raise k).out = s.out := rfl

/-! ### Clearing the Running flag -/
@[simp] theorem clearRunning_regs (s : State) : (clearRunning s).regs = s.regs := rfl
@[simp] theorem clearRunning_pc (s : State) : (clearRunning s).pc = s.pc := rfl
@[simp] theorem clearRunning_mem (s : State) : (clearRunning s).mem = s.mem := rfl
@[simp] theorem clearRunning_running (s : State) : (clearRunning s).running = false := rfl
@[simp] theorem clearRunning_runState (s : State) : (clearRunning s).runState = s.runState := rfl
@[simp] theorem clearRunning_faultReason (s : State) : (clearRunning s).faultReason = s.faultReason := rfl
@[simp] theorem clearRunning_out (s : State) : (clearRunning s).out = s.out := rfl

/-! ### Output -/
@[simp] theorem emit_regs (v : Byte) (s : State) : (emit v s).regs = s.regs := rfl
@[simp] theorem emit_pc (v : Byte) (s : State) : (emit v s).pc = s.pc := rfl
@[simp] theorem emit_mem (v : Byte) (s : State) : (emit v s).mem = s.mem := rfl
@[simp] theorem emit_running (v : Byte) (s : State) : (emit v s).running = s.running := rfl
@[simp] theorem emit_runState (v : Byte) (s : State) : (emit v s).runState = s.runState := rfl
@[simp] theorem emit_faultReason (v : Byte) (s : State) : (emit v s).faultReason = s.faultReason := rfl
@[simp] theorem emit_out (v : Byte) (s : State) : (emit v s).out = s.out ++ [v] := rfl

/-! ### The start of a cycle -/
@[simp] theorem startCycle_regs (s : State) : (startCycle s).regs = s.regs := rfl
@[simp] theorem startCycle_pc (s : State) : (startCycle s).pc = s.pc := rfl
@[simp] theorem startCycle_mem (s : State) : (startCycle s).mem = s.mem := rfl
@[simp] theorem startCycle_running (s : State) : (startCycle s).running = s.running := rfl
@[simp] theorem startCycle_runState (s : State) : (startCycle s).runState = .running := rfl
@[simp] theorem startCycle_faultReason (s : State) : (startCycle s).faultReason = s.faultReason := rfl
@[simp] theorem startCycle_out (s : State) : (startCycle s).out = s.out := rfl

/-! ### Loading -/
@[simp] theorem loadBytes_regs (bs : List Byte) (s : State) : (loadBytes bs s).regs = s.regs := rfl
@[simp] theorem loadBytes_pc (bs : List Byte) (s : State) : (loadBytes bs s).pc = s.pc := rfl
@[simp] theorem loadBytes_mem (bs : List Byte) (s : State) : (loadBytes bs s).mem = s.mem.setMany 0 bs := rfl
@[simp] theorem loadBytes_running (bs : List Byte) (s : State) : (loadBytes bs s).running = s.running := rfl
@[simp] theorem loadBytes_runState (bs : List Byte) (s : State) : (loadBytes bs s).runState = s.runState := rfl
@[simp] theorem loadBytes_faultReason (bs : List Byte) (s : State) :
    (loadBytes bs s).faultReason = s.faultReason := rfl
@[simp] theorem loadBytes_out (bs : List Byte) (s : State) : (loadBytes bs s).out = s.out := rfl

end Sys2Proof.Machine
end

