-- ==== Sys2Proof/Laws/Step.lean ====
section
/-! SUPPORT. What the decoder, the fetch and the step can do, each said once. -/

namespace Sys2Proof.Machine

/-! ### The dispatch table -/

/-- A handler is found by its own opcode only (R86). -/
theorem findHandler_some (op : Byte) (h : Handler) (hf : findHandler op = some h) : op = h.opcode := by
  unfold findHandler dispatchTable at hf
  simp only [List.lookup] at hf
  repeat' split at hf
  all_goals simp_all [Handler.opcode]
  all_goals subst hf; rfl

@[simp] theorem findHandler_opcode (h : Handler) : findHandler h.opcode = some h := by cases h <;> rfl

/-! ### Fetch -/

theorem bytesFrom_ge (m : Memory) (addr n : Nat) (h : memSize ≤ addr) : m.bytesFrom addr n = [] := by
  cases n with
  | zero => rfl
  | succ n => rw [Memory.bytesFrom, if_neg (by omega)]

theorem bytesFrom_succ (m : Memory) (addr n : Nat) (h : addr < memSize) :
    m.bytesFrom addr (n + 1) = m.get addr :: m.bytesFrom (addr + 1) n := by rw [Memory.bytesFrom, if_pos h]

theorem bytesFrom_take (m : Memory) (addr n k : Nat) (h : k ≤ n) :
    (m.bytesFrom addr n).take k = m.bytesFrom addr k := by
  induction n generalizing addr k with
  | zero => obtain rfl : k = 0 := by omega
            rfl
  | succ n ih =>
    by_cases ha : addr < memSize
    · cases k with
      | zero => rfl
      | succ k => rw [bytesFrom_succ m addr n ha, bytesFrom_succ m addr k ha, List.take_succ_cons, ih _ _ (by omega)]
    · simp [bytesFrom_ge m addr _ (by omega)]

theorem bytesFrom_length_lt (m : Memory) (addr n k : Nat) (ha : addr ≤ memSize) (hk : memSize < addr + k) :
    (m.bytesFrom addr n).length < k := by
  induction n generalizing addr k with
  | zero => simp [Memory.bytesFrom]; omega
  | succ n ih =>
    by_cases h : addr < memSize
    · rw [bytesFrom_succ m addr n h, List.length_cons]
      have := ih (addr + 1) (k - 1) (by omega) (by omega)
      omega
    · simp [bytesFrom_ge m addr _ (by omega)]; omega

theorem operandCount_le (h : Handler) : (decodeFields h.opcode).operandCount.toNat ≤ 2 := by cases h <;> decide

/-- What the decoder takes from bytes depends on no byte after the operands (R85). -/
theorem decodeFetched_cons (op : Byte) (h : Handler) (hf : findHandler op = some h) (bytes ops : List Byte)
    (hn : ops.length = (decodeFields op).operandCount.toNat) (ho : bytes.take ops.length = ops) :
    decodeFetched (op :: bytes) = decodeFetched (op :: ops) := by
  have hlen : ops.length ≤ bytes.length := by
    have := congrArg List.length ho
    rw [List.length_take] at this
    omega
  simp only [decodeFetched, decode, hf, ← hn, ho, List.take_length, if_neg (Nat.lt_irrefl _), if_neg (Nat.not_lt.mpr hlen)]
  cases h.withOperands ops <;> rfl

/-- The fetch of a cycle, dispatch check and operand fetch included, is the decoder on the bytes of memory at `pc` that
exist (R112 to R116). -/
theorem fetch_byCount (s : State) : fetch .byCount s = decodeFetched (s.mem.bytesFrom s.pc.toNat 3) := by
  by_cases hp : s.pc.toNat < memSize
  · have hb := bytesFrom_succ s.mem s.pc.toNat 2 hp
    cases hf : findHandler (s.mem.get s.pc.toNat) with
    | none =>
      rw [hb]
      simp [fetch, memRead_lt _ s hp, dispatchCheck, hf, decodeFetched, decode, decodeErrorKind, bind, Except.bind]
    | some h =>
      have hn : (decodeFields (s.mem.get s.pc.toNat)).operandCount.toNat ≤ 2 := by
        rw [findHandler_some _ h hf]; exact operandCount_le h
      by_cases hfit : s.pc.toNat + 1 + (decodeFields (s.mem.get s.pc.toNat)).operandCount.toNat ≤ memSize
      · have hlen := bytesFrom_length s.mem (s.pc.toNat + 1) _ hfit
        rw [hb, decodeFetched_cons _ h hf _ _ hlen (by rw [hlen]; exact bytesFrom_take _ _ _ _ hn)]
        simp [fetch, memRead_lt _ s hp, dispatchCheck, hf, memReadMany_lt _ _ s hfit, bind, Except.bind]
      · have hshort := bytesFrom_length_lt s.mem (s.pc.toNat + 1) 2
          (decodeFields (s.mem.get s.pc.toNat)).operandCount.toNat (by omega) (by omega)
        have hread := memReadMany_ge (s.pc.toNat + 1) (decodeFields (s.mem.get s.pc.toNat)).operandCount.toNat s
          (by omega) (by omega)
        rw [hb]
        simp [fetch, memRead_lt _ s hp, dispatchCheck, hf, hread, decodeFetched, decode, hshort, decodeErrorKind, bind,
          Except.bind]
  · have hread := memRead_ge s.pc.toNat s (by omega)
    rw [bytesFrom_ge _ _ _ (by omega)]
    simp [fetch, hread, decodeFetched, decode, decodeErrorKind, bind, Except.bind]

/-- The fetch of a cycle in terms of the state the cycle starts in. -/
theorem fetch_window (s : State) : fetch .byCount (startCycle s) = decodeFetched s.window := by
  rw [fetch_byCount]; rfl

/-! ### The step -/

/-- A cycle whose fetch raises takes that fault, under any policy and handlers (R112 to R116, R121). -/
theorem cycleWith_fetch_error (p : FetchPolicy) (handlers : Instr → State → Host.Outcome State Fault Refusal) (s : State)
    (k : FaultKind) (hc : s.canCycle) (hf : fetch p (startCycle s) = .error k) :
    cycleWith p handlers s = .next ((startCycle s).raise k) := by
  rcases hc with h | h <;> simp [cycleWith, h, hf]

/-- A cycle whose fetch and handler answer ends as `afterHandler` says, under any policy and handlers (R117 to R121). -/
theorem cycleWith_fetch_ok (p : FetchPolicy) (handlers : Instr → State → Host.Outcome State Fault Refusal) (s t : State)
    (f : Fetched) (hc : s.canCycle) (hf : fetch p (startCycle s) = .ok f)
    (he : handlers f.instr (startCycle s) = .next t) :
    cycleWith p handlers s = .next (afterHandler f.fields.operandCount t) := by
  rcases hc with h | h <;> simp [cycleWith, h, hf, he]

/-- The ends of runs are the states in which no cycle may run (R110, R123). -/
theorem ended_iff (s : State) : s.ended = true ↔ ¬ s.canCycle := by
  cases h : s.runState <;> simp [State.ended, h]

/-- Every handler answers a next state: it completes, or it takes its fault. -/
theorem exec_next (i : Instr) (s : State) : ∃ t, exec i s = .next t := by
  cases i <;>
    simp only [exec, execHlt, execLdi, execPrn, execMul, execPush, execPop] <;>
    exact (settle_cases s _).elim (fun ⟨t, _, h⟩ => ⟨t, h⟩) (fun ⟨k, _, h⟩ => ⟨s.raise k, h⟩)

theorem step_halted (s : State) (h : s.runState = .halted) : step s = .fault .noStepAfterHalt := by
  simp [step, cycleWith, h]

theorem step_faulted (s : State) (h : s.runState = .faulted) : step s = .fault .noStepAfterFault := by
  simp [step, cycleWith, h]

theorem step_fetch_error (s : State) (k : FaultKind) (hc : s.canCycle) (hf : fetch .byCount (startCycle s) = .error k) :
    step s = .next ((startCycle s).raise k) := cycleWith_fetch_error .byCount exec s k hc hf

theorem step_fetch_ok (s t : State) (f : Fetched) (hc : s.canCycle) (hf : fetch .byCount (startCycle s) = .ok f)
    (he : exec f.instr (startCycle s) = .next t) : step s = .next (afterHandler f.fields.operandCount t) :=
  cycleWith_fetch_ok .byCount exec s t f hc hf he

/-- All that a step can do. -/
theorem step_cases (s t : State) (h : step s = .next t) :
    s.canCycle ∧
      ((∃ k, fetch .byCount (startCycle s) = .error k ∧ t = (startCycle s).raise k) ∨
        (∃ f u, fetch .byCount (startCycle s) = .ok f ∧ exec f.instr (startCycle s) = .next u ∧
          t = afterHandler f.fields.operandCount u)) := by
  by_cases hc : s.canCycle
  · refine ⟨hc, ?_⟩
    cases hf : fetch .byCount (startCycle s) with
    | error k =>
      rw [step_fetch_error s k hc hf, Host.Outcome.next.injEq] at h
      exact .inl ⟨k, rfl, h.symm⟩
    | ok f =>
      obtain ⟨u, hu⟩ := exec_next f.instr (startCycle s)
      rw [step_fetch_ok s u f hc hf hu, Host.Outcome.next.injEq] at h
      exact .inr ⟨f, u, rfl, hu, h.symm⟩
  · cases hr : s.runState with
    | ready => exact absurd (.inl hr) hc
    | running => exact absurd (.inr hr) hc
    | halted => rw [step_halted s hr] at h; cases h
    | faulted => rw [step_faulted s hr] at h; cases h

/-- A run takes its steps one after the other. -/
theorem core_run_next (n : Nat) (s t : State) (h : step s = .next t) :
    Sys2Proof.core.run (n + 1) s = Sys2Proof.core.run n t := by
  have h' : Sys2Proof.core.step s = .next t := h
  simp only [Host.Core.run, h']

theorem runFuel_next (n : Nat) (s t : State) (h : step s = .next t) : runFuel (n + 1) s = runFuel n t := by
  simp [runFuel, h]

/-- Where a cycle may run, the step answers a next state (R110). -/
theorem step_next (s : State) (hc : s.canCycle) : ∃ t, step s = .next t := by
  cases hf : fetch .byCount (startCycle s) with
  | error k => exact ⟨_, step_fetch_error s k hc hf⟩
  | ok f =>
    obtain ⟨u, hu⟩ := exec_next f.instr (startCycle s)
    exact ⟨_, step_fetch_ok s u f hc hf hu⟩

/-- No cycle runs after the end of a run, whatever the budget (R110, R214). -/
theorem runFuel_ended (n : Nat) (s : State) (h : s.ended = true) : runFuel n s = s := by
  cases n with
  | zero => rfl
  | succ n =>
    cases hs : step s with
    | next t => exact absurd (step_cases s t hs).1 ((ended_iff s).1 h)
    | fault r => simp [runFuel, hs]
    | refused r => simp [runFuel, hs]

end Sys2Proof.Machine
end

