-- ==== Sys2Proof/Machine/Assembly.lean ====
section
/-! DEFINITION. The assembly syntax of rules R13 and R94, as abstract syntax: what a written operand stands for and the
bytes a written instruction assembles to. There are no directives and no pseudo-instructions (rule R95). -/

namespace Sys2Proof.Machine

/-- A written register operand: `R0` to `R7`, `SP`, or a bare number for an invalid index (R94). -/
inductive AsmReg where
  | r (n : Fin 8)
  | sp
  | bare (b : Byte)
  deriving DecidableEq, Repr

/-- The operand byte it assembles to: `SP` is `R7` (R94). -/
def AsmReg.byte : AsmReg → Byte
  | .r n => BitVec.ofNat 8 n.val
  | .sp => spIndex
  | .bare b => b

/-- A written instruction (R94). -/
inductive AsmLine where
  | hlt
  | ldi (a : AsmReg) (imm : Byte)
  | prn (a : AsmReg)
  | mul (a b : AsmReg)
  | push (a : AsmReg)
  | pop (a : AsmReg)
  deriving DecidableEq, Repr

/-- The bytes column of rule R94. -/
def AsmLine.assemble : AsmLine → List Byte
  | .hlt => [0x01#8]
  | .ldi a imm => [0x82#8, a.byte, imm]
  | .prn a => [0x47#8, a.byte]
  | .mul a b => [0xA2#8, a.byte, b.byte]
  | .push a => [0x45#8, a.byte]
  | .pop a => [0x46#8, a.byte]

/-- A program: its lines one after the other (R218). -/
def assembleAll (p : List AsmLine) : List Byte := p.flatMap AsmLine.assemble

end Sys2Proof.Machine
end

