-- ==== Sys2Proof/Machine/Image.lean ====
section
/-! DEFINITION. The text image of a program (rules R96, R97) and the two load-phase errors (rules R181, R188). The spec
puts the loader that reads it outside the core (rule R4); it stands here beside the core, and no step uses it. -/

namespace Sys2Proof.Machine

/-- The errors of the load phase, raised outside the core (R181, R188). -/
inductive LoadPhaseError where
  /-- "path does not resolve" (R181). -/
  | programNotFound
  /-- A token "is not a valid 8-bit binary literal" (R181). -/
  | malformedInstruction
  deriving DecidableEq, Repr

/-- Their numeric codes (R181; the spec's decision D7). -/
def LoadPhaseError.code : LoadPhaseError → Nat
  | .programNotFound => 5
  | .malformedInstruction => 6

/-- The lines of a text. -/
def splitLines : List Char → List (List Char)
  | [] => [[]]
  | c :: cs =>
    if c = Char.ofNat 10 then [] :: splitLines cs
    else
      match splitLines cs with
      | [] => [[c]]
      | l :: ls => (c :: l) :: ls

/-- Blanks around a token: space, tab, carriage return (log entry 18). -/
def isBlank (c : Char) : Bool := c = ' ' || c = Char.ofNat 9 || c = Char.ofNat 13

/-- A line without its comment, which begins with `#`, and without the blanks around what is left (R96). -/
def stripLine (l : List Char) : List Char :=
  (((l.takeWhile (fun c => c ≠ '#')).dropWhile isBlank).reverse.dropWhile isBlank).reverse

/-- A binary digit. -/
def bitValue (c : Char) : Option Nat :=
  if c = '0' then some 0 else if c = '1' then some 1 else none

/-- The number a list of binary digits writes, bit 7 first, from an accumulator on (R96). -/
def binaryValue : Nat → List Char → Option Nat
  | acc, [] => some acc
  | acc, c :: cs =>
    match bitValue c with
    | some b => binaryValue (2 * acc + b) cs
    | none => none

/-- An 8-character binary literal (R96). -/
def parseLiteral (l : List Char) : Option Byte :=
  if l.length = 8 then (binaryValue 0 l).map trunc8 else none

/-- The bytes of the lines in order: blank and comment-only lines carry none (R96). -/
def parseLines : List (List Char) → Except LoadPhaseError (List Byte)
  | [] => .ok []
  | l :: ls =>
    match stripLine l with
    | [] => parseLines ls
    | c :: cs =>
      match parseLiteral (c :: cs) with
      | none => .error .malformedInstruction
      | some b => (parseLines ls).map (fun bs => b :: bs)

/-- The byte sequence of a program image (R96). -/
def parseImage (text : List Char) : Except LoadPhaseError (List Byte) := parseLines (splitLines text)

/-- The loader outside the core: a path that does not resolve gives no text (R96, R188). -/
def loaderBytes : Option (List Char) → Except LoadPhaseError (List Byte)
  | none => .error .programNotFound
  | some text => parseImage text

/-- The load phase still lies ahead: `Ready`, and no load since reset (R188, R212). -/
def Session.awaitsLoad (h : Session) : Bool := decide (h.machine.runState = .ready) && decide (h.loadPhase = .notLoaded)

/-- The load phase: on a loader error the core's `load` is never called, the machine stays as it is and no cycle may run
(R188). The spec has loader errors before execution begins only. DESIGN CHOICE (log entry 24): on a session that has already
loaded, run or ended, a loader error is reported and changes nothing, as a refused `load` does there (R213), so that
`run()` on an ended machine still reports its result again (R214). -/
def Session.loadProgram (file : Option (List Char)) (h : Session) : Session × Except LoadPhaseError LoadResult :=
  match loaderBytes file with
  | .error e => (if h.awaitsLoad then { h with loadPhase := .failed } else h, .error e)
  | .ok bytes => ((h.load bytes).1, .ok (h.load bytes).2)

end Sys2Proof.Machine
end

