-- ==== Sys2Proof/Tests/Slice0.lean ====
section
/-! SUPPORT. Tests of the model against `spec/`: each expected value is the spec's own, from the rule or the vector of
`95_test_vectors.md` the test names; then the witnesses that the hypotheses of the statements can be met. -/

namespace Sys2Proof.Tests

open Sys2Proof Sys2Proof.Machine

/-! ### Helpers -/

/-- The reset state with bytes loaded at address 0. -/
def withProgram (bytes : List Byte) : State := loadBytes bytes State.reset

/-- A register set beforehand. -/
def withReg (i : Fin 8) (v : Byte) (s : State) : State := { s with regs := s.regs.set i v }

/-- A memory cell set beforehand. -/
def withCell (a : Nat) (v : Byte) (s : State) : State := { s with mem := s.mem.set a v }

/-- The next state of one step, if there is one. -/
def after (s : State) : Option State :=
  match step s with
  | .next t => some t
  | .fault _ => none
  | .refused _ => none

/-! ### Well-formedness: an ill-formed term for each check -/

theorem test_wf_ldi : (Instr.ldi 8#8 1#8).wellFormed = false := by decide
theorem test_wf_prn : (Instr.prn 9#8).wellFormed = false := by decide
theorem test_wf_mul_first : (Instr.mul 8#8 0#8).wellFormed = false := by decide
theorem test_wf_mul_second : (Instr.mul 0#8 255#8).wellFormed = false := by decide
theorem test_wf_push : (Instr.push 8#8).wellFormed = false := by decide
theorem test_wf_pop : (Instr.pop 255#8).wellFormed = false := by decide
theorem test_wf_accepts_r7 : (Instr.mul 7#8 7#8).wellFormed = true ∧ (Instr.ldi 7#8 255#8).wellFormed = true := by decide

/-! ### Decoding: words written out from R86 -/

theorem test_decode_hlt : decodeTableWord 8 0b00000001 = some .hlt := by decide
theorem test_decode_ldi : decodeTableWord 24 0b111111110000001110000010 = some (.ldi 3#8 255#8) := by decide
theorem test_decode_prn : decodeTableWord 16 0b0000010101000111 = some (.prn 5#8) := by decide
theorem test_decode_mul : decodeTableWord 24 0b000000010000001010100010 = some (.mul 2#8 1#8) := by decide
theorem test_decode_push : decodeTableWord 16 0b0000011101000101 = some (.push 7#8) := by decide
theorem test_decode_pop : decodeTableWord 16 0b0000011001000110 = some (.pop 6#8) := by decide
/-- R88: 0xA0 has no handler, there is no ADD instruction. -/
theorem test_decode_no_add : decode [0xA0#8, 0#8, 1#8] = .error (.illegalOpcode 0xA0#8) := by decide
/-- R83: the raw count 3 for 0xFF, whose other two bits are set as well. -/
theorem test_fields_ff : decodeFields 0xFF#8 = ⟨3#2, true, true⟩ := by decide
/-- R93: LDI and MUL share their low nibble; 0x02 is neither. -/
theorem test_decode_low_nibble : findHandler 0x02#8 = none := by decide

/-! ### One step of each instruction -/

/-- V-HLT-1. -/
theorem test_hlt : after (withProgram [0x01#8]) =
    some { withProgram [0x01#8] with running := false, runState := .halted } := by decide
/-- V-LDI-2. -/
theorem test_ldi : (after (withProgram [0x82#8, 3#8, 0xFF#8])).map (fun t => (t.regs.get 3, t.pc, t.runState)) =
    some (0xFF#8, 3#9, .running) := by decide
/-- V-LDI-5: nothing but the fault. -/
theorem test_ldi_bad_index : after (withProgram [0x82#8, 8#8, 1#8]) =
    some { withProgram [0x82#8, 8#8, 1#8] with runState := .faulted, faultReason := some .outOfBounds } := by decide
/-- V-PRN-4, its first cycle. -/
theorem test_prn : (after (withProgram [0x47#8, 7#8])).map (fun t => (t.out, t.pc)) = some ([244#8], 2#9) := by decide
/-- V-PRN-6. -/
theorem test_prn_bad_index : (after (withProgram [0x47#8, 9#8])).map (fun t => (t.out, t.pc, t.faultReason)) =
    some ([], 0#9, some .outOfBounds) := by decide
/-- V-MUL-7: the stack pointer is an ordinary destination. -/
theorem test_mul : (after (withReg 0 2#8 (withProgram [0xA2#8, 7#8, 0#8]))).map (fun t => (t.regs.get 7, t.pc)) =
    some (0xE8#8, 3#9) := by decide
/-- V-MUL-10. -/
theorem test_mul_bad_second : (after (withReg 0 5#8 (withProgram [0xA2#8, 0#8, 0xFF#8]))).map
    (fun t => (t.regs.get 0, t.pc, t.faultReason)) = some (5#8, 0#9, some .outOfBounds) := by decide
/-- V-PUSH-3: the stack pointer wraps. -/
theorem test_push_wraps : (after (withReg 7 0#8 (withReg 0 0xAB#8 (withProgram [0x45#8, 0#8])))).map
    (fun t => (t.regs.get 7, t.mem.get 0xFF, t.pc)) = some (0xFF#8, 0xAB#8, 2#9) := by decide
/-- V-PUSH-4: the decremented value is stored. -/
theorem test_push_sp : (after (withProgram [0x45#8, 7#8])).map (fun t => (t.regs.get 7, t.mem.get 0xF3)) =
    some (0xF3#8, 0xF3#8) := by decide
/-- V-POP-4: popped byte plus one. -/
theorem test_pop_sp : (after (withCell 0xF3 0x20#8 (withReg 7 0xF3#8 (withProgram [0x46#8, 7#8])))).map
    (fun t => t.regs.get 7) = some 0x21#8 := by decide
/-- V-POP-3: the stack pointer wraps. -/
theorem test_pop_wraps : (after (withCell 0xFF 0x5A#8 (withReg 7 0xFF#8 (withProgram [0x46#8, 0#8])))).map
    (fun t => (t.regs.get 0, t.regs.get 7)) = some (0x5A#8, 0#8) := by decide

/-! ### The cycle -/

/-- V-CYC-8. -/
theorem test_illegal : (after (withProgram [0xFF#8])).map (fun t => (t.running, t.runState, t.faultCode)) =
    some (true, .faulted, 4) := by decide
/-- V-CYC-4: an illegal opcode at 255 is `IllegalInstruction`; under `always_two` it is `OutOfBounds`. -/
theorem test_illegal_at_top : fetch .byCount (withCell 255 0xFF#8 { State.reset with pc := 255#9 }) =
      .error .illegalInstruction ∧
    fetch .alwaysTwo (withCell 255 0xFF#8 { State.reset with pc := 255#9 }) = .error .outOfBounds := by decide
/-- V-HLT-3: HLT at 255 halts. -/
theorem test_hlt_at_top : (after (withCell 255 1#8 { State.reset with pc := 255#9 })).map
    (fun t => (t.runState, t.pc)) = some (.halted, 255#9) := by decide
/-- V-LDI-7: LDI at 254 faults at the fetch of `operand_b`. -/
theorem test_ldi_at_top : (after (withCell 254 0x82#8 { State.reset with pc := 254#9 })).map
    (fun t => (t.faultReason, t.pc)) = some (some .outOfBounds, 254#9) := by decide
/-- V-CYC-6 and V-CYC-7: no step after the end. -/
theorem test_no_step_after_end : after { State.reset with runState := .halted } = none ∧
    after { State.reset with runState := .faulted } = none := by decide
/-- V-RST-2. -/
theorem test_load : (Session.reset.load [0x82#8, 0#8, 8#8]).1.machine.mem = [(0, 0x82#8), (2, 8#8)] ∧
    (Session.reset.load [0x82#8, 0#8, 8#8]).2 = .accepted := by decide
/-- V-RST-4. -/
theorem test_load_too_long : (Session.reset.load (List.replicate 257 1#8)).2 = .failed .outOfBounds := by
  rw [Session.load, if_pos (show Session.reset.machine.runState = .ready from rfl), List.length_replicate]
  rfl
/-- Under `SP_POLICY = fault`, V-PUSH-3's other value. -/
theorem test_push_policy_fault : pushUnder .fault 0#8 (withReg 7 0#8 State.reset) = .error .outOfBounds := by rfl

/-! ### Around the core -/

/-- R151: the source's scenario A prints the line `72`. -/
theorem test_render : render [72#8] = ['7', '2', Char.ofNat 10] := by decide
theorem test_render_zero : decimal 0#8 = ['0'] := by decide
/-- R96 and two lines of R97's example, a blank and a comment-only line between them, which take no address. -/
theorem test_image : parseLines [['1','0','0','0','0','0','1','0',' ','#',' ','L'], [], ['#'],
    ['0','0','0','0','1','0','0','0']] = .ok [0x82#8, 8#8] := by rfl
/-- R96: a token that is no 8-bit binary literal. -/
theorem test_image_malformed : parseImage ['1','0','2'] = .error .malformedInstruction := by rfl
/-- R188: a loader error before execution begins leaves the machine as it is and no cycle runs. -/
theorem test_loader_error : (Session.reset.loadProgram none).1.machine = State.reset ∧
    (Session.reset.loadProgram none).1.loadPhase = .failed := by decide
/-- R214: on an ended machine a loader error changes nothing, so `run()` reports again (log entry 24). -/
theorem test_loader_error_after_end :
    (Session.loadProgram none ⟨{ State.reset with running := false, runState := .halted }, .loaded⟩).1 =
      ⟨{ State.reset with running := false, runState := .halted }, .loaded⟩ := by decide
/-- R94: lines of the source's scenario A (S7), and `SP` written for `R7`. -/
theorem test_assembly : assembleAll [.ldi (.r 0) 8#8, .mul (.r 0) (.r 1), .prn .sp, .hlt] =
    [0x82#8, 0#8, 8#8, 0xA2#8, 0#8, 1#8, 0x47#8, 7#8, 1#8] := by decide

/-! ### Witnesses: the hypotheses of the statements can be met -/

theorem witness_EncodeInvertsDecode : decode [0x47#8, 7#8, 9#8] = .ok ⟨⟨1#2, false, false⟩, .prn 7#8, [9#8]⟩ := by decide
theorem witness_IllegalOpcodesAreRejected : findHandler 0x00#8 = none ∧ findHandler 0x44#8 = none ∧
    findHandler 0x48#8 = none ∧ findHandler 0x81#8 = none ∧ findHandler 0x83#8 = none ∧ findHandler 0xA1#8 = none ∧
    findHandler 0xA3#8 = none ∧ findHandler 0x45#8 ≠ none := by decide
theorem witness_RegisterWriteThenRead : (7#8 : Byte).toNat ≤ 7 := by decide
theorem witness_RegisterIndexClauses : (7#8 : Byte).toNat ≤ 7 ∧ 7 < (8#8 : Byte).toNat := by decide
theorem witness_MemoryAddressClauses : State.reset.mem.wf = true ∧ 255 < 256 ∧ 256 ≤ 256 := by decide
theorem witness_EqualMemoriesAreEqualData : Memory.wf [(3, 1#8), (255, 2#8)] = true := by decide
theorem witness_LdiHandlerCompletes : (7#8 : Byte).toNat < 8 := by decide
theorem witness_PrnHandlerCompletes : (0#8 : Byte).toNat < 8 := by decide
theorem witness_MulHandlerCompletes : (7#8 : Byte).toNat < 8 ∧ (0#8 : Byte).toNat < 8 := by decide
theorem witness_PushHandlerCompletes : (7#8 : Byte).toNat < 8 := by decide
theorem witness_PopHandlerCompletes : (7#8 : Byte).toNat < 8 := by decide
theorem witness_BadRegisterIndexTakesOutOfBounds : (Instr.push 8#8).wellFormed = false := by decide
theorem witness_WellFormedInstructionsComplete : (Instr.pop 7#8).wellFormed = true := by decide
theorem witness_OnlyListedRegistersChange : ∃ t, exec (.ldi 3#8 1#8) State.reset = .next t ∧
    regByte 2 ∉ writtenRegs (.ldi 3#8 1#8) := ⟨_, rfl, by decide⟩
theorem witness_OnlyTheStoredByteChanges : ∃ t, exec (.push 3#8) State.reset = .next t ∧
    storeAddress (.push 3#8) State.reset = some 0xF3 ∧ storeAddress (.push 3#8) State.reset ≠ some 0xF4 :=
  ⟨_, rfl, by decide, by decide⟩
theorem witness_ControlStateFrame : ∃ t, exec (.pop 3#8) State.reset = .next t ∧ Instr.pop 3#8 ≠ .hlt ∧
    (∀ a, Instr.pop 3#8 ≠ .prn a) ∧ (Instr.pop 3#8).wellFormed = true := ⟨_, rfl, by decide, nofun, by decide⟩
theorem witness_StepRunsDecodedInstruction : State.canCycle (withProgram [0x01#8]) ∧
    decode (withProgram [0x01#8]).window = .ok ⟨⟨0#2, false, false⟩, .hlt, [0#8, 0#8]⟩ := by decide
theorem witness_StepRunsDecodedInstruction_clauses :
    (∃ t, exec (.prn 8#8) { State.reset with runState := .running } = .next t ∧ t.runState = .faulted) ∧
    (∃ t, exec .hlt { State.reset with runState := .running } = .next t ∧ t.runState ≠ .faulted ∧ t.running = false) ∧
    (∃ t, exec (.prn 7#8) { State.reset with runState := .running } = .next t ∧ t.runState ≠ .faulted ∧
      t.running = true) := ⟨⟨_, rfl, rfl⟩, ⟨_, rfl, by decide, rfl⟩, ⟨_, rfl, by decide, rfl⟩⟩
theorem witness_FetchPastTheTopFaults : State.canCycle { State.reset with pc := 256#9, runState := .running } ∧
    256 ≤ (256#9).toNat := by decide
theorem witness_IllegalOpcodeFaults : State.reset.canCycle ∧ State.reset.pc.toNat < 256 ∧
    State.reset.mem.get State.reset.pc.toNat ∉ [0x01#8, 0x82#8, 0x47#8, 0xA2#8, 0x45#8, 0x46#8] := by decide
theorem witness_HltCycle : (withProgram [0x01#8]).canCycle ∧ (withProgram [0x01#8]).pc.toNat < 256 ∧
    (withProgram [0x01#8]).mem.get (withProgram [0x01#8]).pc.toNat = 0x01#8 := by decide

/-- A state about to run the instruction with the given opcode and first operand at an address. -/
def stateAt (pc : PcWord) (op a b : Byte) : State :=
  placeAtPc [op, a, b] { State.reset with pc := pc, runState := .running }

/-- The premises of a cycle statement at a boundary address, and the register operand read there. -/
def cyclePremises (s : State) (op a : Byte) : Bool :=
  decide s.canCycle && s.running && decide (s.mem.get s.pc.toNat = op) && decide (s.mem.get (s.pc.toNat + 1) = a) &&
    s.mem.wf

theorem witness_LdiCycle : cyclePremises (stateAt 253#9 0x82#8 7#8 1#8) 0x82#8 7#8 = true ∧
    cyclePremises (stateAt 253#9 0x82#8 8#8 1#8) 0x82#8 8#8 = true ∧
    cyclePremises (stateAt 254#9 0x82#8 7#8 1#8) 0x82#8 7#8 = true ∧
    cyclePremises (stateAt 255#9 0x82#8 0#8 1#8) 0x82#8 0#8 = true := by decide
theorem witness_PrnCycle : cyclePremises (stateAt 254#9 0x47#8 7#8 0#8) 0x47#8 7#8 = true ∧
    cyclePremises (stateAt 254#9 0x47#8 8#8 0#8) 0x47#8 8#8 = true ∧
    cyclePremises (stateAt 255#9 0x47#8 0#8 0#8) 0x47#8 0#8 = true := by decide
theorem witness_MulCycle : cyclePremises (stateAt 253#9 0xA2#8 7#8 7#8) 0xA2#8 7#8 = true ∧
    cyclePremises (stateAt 253#9 0xA2#8 7#8 8#8) 0xA2#8 7#8 = true ∧
    cyclePremises (stateAt 254#9 0xA2#8 8#8 7#8) 0xA2#8 8#8 = true ∧
    cyclePremises (stateAt 255#9 0xA2#8 0#8 1#8) 0xA2#8 0#8 = true := by decide
theorem witness_PushCycle : cyclePremises (stateAt 254#9 0x45#8 7#8 0#8) 0x45#8 7#8 = true ∧
    cyclePremises (stateAt 254#9 0x45#8 8#8 0#8) 0x45#8 8#8 = true ∧
    cyclePremises (stateAt 255#9 0x45#8 0#8 0#8) 0x45#8 0#8 = true := by decide
theorem witness_PopCycle : cyclePremises (stateAt 254#9 0x46#8 7#8 0#8) 0x46#8 7#8 = true ∧
    cyclePremises (stateAt 254#9 0x46#8 8#8 0#8) 0x46#8 8#8 = true ∧
    cyclePremises (stateAt 255#9 0x46#8 0#8 0#8) 0x46#8 0#8 = true := by decide
theorem witness_CycleRunsExactlyWhenNotEnded : State.canCycle State.reset ∧
    ¬ State.canCycle { State.reset with runState := .halted } := by decide
theorem witness_FirstCycleLeavesReady : State.reset.runState = .ready ∧ (after (withProgram [0x47#8, 0#8])).isSome = true := by
  decide
/-- The premises of `IllegalOpcodeFaults` at the top of memory: an illegal opcode of count 2 at 254, of count 3 at 255. -/
theorem witness_IllegalOpcodeFaults_top :
    let s := stateAt 254#9 0xA0#8 0#8 0#8
    let t := stateAt 255#9 0xFF#8 0#8 0#8
    (s.canCycle ∧ s.pc.toNat = 254 ∧ s.mem.get s.pc.toNat ∉ [0x01#8, 0x82#8, 0x47#8, 0xA2#8, 0x45#8, 0x46#8]) ∧
      (t.canCycle ∧ t.pc.toNat = 255 ∧ t.mem.get t.pc.toNat ∉ [0x01#8, 0x82#8, 0x47#8, 0xA2#8, 0x45#8, 0x46#8]) := by
  decide
/-- The premises of `HltCycle` at the top of memory. -/
theorem witness_HltCycle_top : cyclePremises (stateAt 254#9 0x01#8 0xFF#8 0#8) 0x01#8 0xFF#8 = true ∧
    cyclePremises (stateAt 255#9 0x01#8 0#8 0#8) 0x01#8 0#8 = true := by decide
/-- The premises of `StepRunsDecodedInstruction` where fewer than three bytes are left. -/
theorem witness_StepRunsDecodedInstruction_top :
    decode (stateAt 254#9 0x47#8 7#8 0#8).window = .ok ⟨⟨1#2, false, false⟩, .prn 7#8, []⟩ ∧
    decode (stateAt 255#9 0x01#8 0#8 0#8).window = .ok ⟨⟨0#2, false, false⟩, .hlt, []⟩ := by decide
/-- A reachable state and its next state, for the statements about a step: `StepKeepsInvariant`, `OutputOnlyGrows`,
`OnlyPushWritesMemory`, `PcAdvancesByTheInstructionLength`, `FaultCauses`. -/
theorem witness_step_next : (withProgram [0x45#8, 7#8]).Inv ∧
    (after (withProgram [0x45#8, 7#8])).map (fun t => decide (t.runState = .running)) = some true := by decide
/-- How a step ends, with its fault reason. -/
def endOf (s : State) : Option (RunState × Option FaultKind) := (after s).map (fun t => (t.runState, t.faultReason))

/-- `FaultCauses`, its first clause: an illegal opcode at 254 and at 255, where R185 puts it before the operand fetch. -/
theorem witness_FaultCauses_illegal :
    endOf (stateAt 254#9 0xA0#8 0#8 0#8) = some (.faulted, some .illegalInstruction) ∧
    endOf (stateAt 255#9 0xFF#8 0#8 0#8) = some (.faulted, some .illegalInstruction) := by decide
/-- `FaultCauses`, the causes of `OutOfBounds`: `pc` at 256; an operand byte missing at 254 and 255; an index above 7 in the
last place it can be read. -/
theorem witness_FaultCauses_outOfBounds :
    endOf { State.reset with pc := 256#9, runState := .running } = some (.faulted, some .outOfBounds) ∧
    endOf (stateAt 254#9 0x82#8 0#8 0#8) = some (.faulted, some .outOfBounds) ∧
    endOf (stateAt 255#9 0x47#8 0#8 0#8) = some (.faulted, some .outOfBounds) ∧
    endOf (stateAt 253#9 0xA2#8 7#8 8#8) = some (.faulted, some .outOfBounds) ∧
    endOf (stateAt 254#9 0x45#8 8#8 0#8) = some (.faulted, some .outOfBounds) := by decide
/-- `FaultCauses`, no cause: HLT at 255, PRN at 254, LDI at 253, PUSH at 0x00 and POP at 0xFF. -/
theorem witness_FaultCauses_none :
    endOf (stateAt 255#9 0x01#8 0#8 0#8) = some (.halted, none) ∧
    endOf (stateAt 254#9 0x47#8 7#8 0#8) = some (.running, none) ∧
    endOf (stateAt 253#9 0x82#8 7#8 255#8) = some (.running, none) ∧
    endOf (withReg 7 0x00#8 (stateAt 0#9 0x45#8 7#8 0#8)) = some (.running, none) ∧
    endOf (withReg 7 0xFF#8 (stateAt 0#9 0x46#8 7#8 0#8)) = some (.running, none) := by decide
theorem witness_FaultsArePrecise : (after (withProgram [0xA0#8])).map (fun t => decide (t.runState = .faulted)) = some true := by
  decide
theorem witness_OnlyHltEndsWell : (withProgram [0x01#8]).Inv ∧
    (after (withProgram [0x01#8])).map (fun t => decide t.goodEnd) = some true := by decide

/-- PUSH R0 and POP R6 at an address, the stack away from them. -/
def roundTrip (pc : PcWord) (sp : Byte) : State :=
  withReg 7 sp (placeAtPc [0x45#8, 0#8, 0x46#8, 6#8] { State.reset with pc := pc, runState := .running })

/-- The premises of the round trip at an address. -/
def roundTripPremises (s : State) : Bool :=
  decide s.canCycle && s.running && s.mem.wf && decide (s.pc.toNat ≤ 252) && decide (s.mem.get s.pc.toNat = 0x45#8) &&
    decide (s.mem.get (s.pc.toNat + 1) = 0#8) && decide (s.mem.get (s.pc.toNat + 2) = 0x46#8) &&
    decide (s.mem.get (s.pc.toNat + 3) = 6#8) && decide ((s.regs.get 7 - 1#8).toNat ≠ s.pc.toNat + 2) &&
    decide ((s.regs.get 7 - 1#8).toNat ≠ s.pc.toNat + 3)

theorem witness_PushThenPopRoundTrip : roundTripPremises (roundTrip 0#9 0#8) = true ∧
    roundTripPremises (roundTrip 252#9 0xF4#8) = true := by decide
theorem witness_StackReversesOrder : [(0 : Fin 8), 6].length ≤ 256 ∧ (7 : Fin 8) ∉ [(0 : Fin 8), 6] ∧ (6 : Fin 8) ≠ 7 ∧
    State.reset.mem.wf = true := by decide
/-- P4 at its third instruction: the stack pointer is 9, the PUSH stands at 6. -/
theorem witness_FetchSeesThePush :
    let s := withReg 0 1#8 (withReg 7 9#8 (placeAtPc [0x45#8, 0#8, 0xFF#8] { State.reset with pc := 6#9, runState := .running }))
    s.canCycle ∧ s.running = true ∧ s.mem.wf = true ∧ s.pc.toNat ≤ 253 ∧ s.mem.get 6 = 0x45#8 ∧ s.mem.get 7 = 0#8 ∧
      (s.regs.get 7 - 1#8).toNat = s.pc.toNat + 2 ∧ s.regs.get 0 = 0x01#8 := by decide
/-- The same with the PUSH at 253: the HLT it stores stands at 255. -/
theorem witness_FetchSeesThePush_top :
    let s := withReg 0 1#8 (withReg 7 0#8 (placeAtPc [0x45#8, 0#8] { State.reset with pc := 253#9, runState := .running }))
    s.canCycle ∧ s.running = true ∧ s.mem.wf = true ∧ s.pc.toNat ≤ 253 ∧ s.mem.get 253 = 0x45#8 ∧ s.mem.get 254 = 0#8 ∧
      (s.regs.get 7 - 1#8).toNat = s.pc.toNat + 2 ∧ s.regs.get 0 = 0x01#8 := by decide
theorem witness_FetchPoliciesAgreeBelow254 : (253#9).toNat ≠ 254 ∧ (253#9).toNat ≠ 255 ∧ (256#9).toNat ≠ 255 := by decide
theorem witness_AlwaysTwoFaultsAtTheTop : State.canCycle { State.reset with pc := 255#9, runState := .running } ∧
    ({ Config.hardware with fetchPolicy := .alwaysTwo } : Config).fetchPolicy = .alwaysTwo ∧ (255#9).toNat = 255 ∧ (254#9).toNat = 254 := by decide
theorem witness_StackPoliciesDifferOnlyAtTheEnds : State.reset.regs.get 7 ≠ 0x00#8 ∧ State.reset.regs.get 7 ≠ 0xFF#8 ∧
    (withReg 7 0#8 State.reset).regs.get 7 = 0x00#8 ∧ (withReg 7 255#8 State.reset).regs.get 7 = 0xFF#8 := by decide
theorem witness_LoadPlacesBytesFromAddressZero : Session.reset.machine.runState = .ready ∧
    Session.reset.loadPhase = .notLoaded ∧ Session.reset.machine.mem.wf = true ∧
    (List.replicate 256 (1#8 : Byte)).length ≤ 256 := ⟨rfl, rfl, rfl, by rw [List.length_replicate]⟩
theorem witness_LoadFailsOrIsRefused : 256 < (List.replicate 257 (1#8 : Byte)).length ∧
    (Session.reset.load [1#8]).1.loadPhase ≠ .notLoaded ∧ (Session.reset.load [1#8]).1.machine.runState = .ready ∧
    (⟨{ State.reset with runState := .halted }, .loaded⟩ : Session).machine.runState ≠ .ready :=
  ⟨by rw [List.length_replicate]; decide, by decide, by decide, by decide⟩
theorem witness_RunReportsHowItEnded : State.reset.Inv ∧
    State.Inv { State.reset with running := false, runState := .halted } ∧
    State.ended { State.reset with running := false, runState := .halted } = true := by decide
theorem witness_BudgetedRunsContinue : 0 < 1 ∧ (runFuel 1 (withProgram [0x47#8, 7#8])).ended = false ∧ 129 ≤ 129 := by decide
theorem witness_RenderingIsDecimal : (decimal 0#8).head? = some (Char.ofNat 48) := by decide

/-- The host's question: the word of each opcode-table row runs as the first instruction after reset. -/
theorem test_fetch_word_runs : (after (State.reset.withFetchWord 24 0x080382)).map (fun t => (t.regs.get 3, t.pc)) =
    some (8#8, 3#9) := by decide

end Sys2Proof.Tests
end

/-! The open parameters of rule R8 at this hardware's values. -/
section
namespace Sys2Proof.Machine

/-- The handlers under `SP_POLICY = wrap`, this hardware's value, are the dispatch: the two stack instructions alone depend
on the policy (R170), and theirs is the policy `execPush` and `execPop` take. -/
theorem execUnder_hardware : execUnder Config.hardware.spPolicy = exec := by
  funext i s
  cases i <;> rfl

/-- Settles O50: the two steps are the one loop with the one fetch policy, and their handlers agree. -/
theorem hardwareIsItsConfiguration : Obligations.HardwareIsItsConfiguration := by
  intro s
  calc stepUnder Config.hardware s
      = cycleWith Config.hardware.fetchPolicy (execUnder Config.hardware.spPolicy) s := rfl
    _ = cycleWith Config.hardware.fetchPolicy exec s := by rw [execUnder_hardware]
    _ = step s := rfl

end Sys2Proof.Machine
end

/-! What a handler answers, instruction by instruction, and what a cycle can do: the layer the statements about the
architectural state rest on. -/
section
namespace Sys2Proof.Machine

/-! ### Register operands -/

@[simp] theorem validIndex_eq_true (b : Byte) : validIndex b = true ↔ b.toNat < 8 := by simp [validIndex]

@[simp] theorem validIndex_eq_false (b : Byte) : validIndex b = false ↔ ¬ b.toNat < 8 := by simp [validIndex]

/-- A valid operand byte is the byte of the register it names. -/
theorem regByte_index (a : Byte) (ha : a.toNat < 8) : regByte ⟨a.toNat, ha⟩ = a := by simp [regByte]

/-- A register whose byte differs from a valid operand byte is not the one the operand names. -/
theorem ne_index_of_regByte_ne {r : Fin 8} {a : Byte} (ha : a.toNat < 8) (h : regByte r ≠ a) : r ≠ ⟨a.toNat, ha⟩ := by
  rintro rfl
  exact h (regByte_index a ha)

/-- A register whose byte is not the stack pointer's is not register 7. -/
theorem ne_seven_of_regByte_ne {r : Fin 8} (h : regByte r ≠ spIndex) : r ≠ 7 := by
  rintro rfl
  exact h rfl

/-- The masked value of a register write is the number modulo 256 (R10, R24). -/
theorem toNat_trunc8 (v : Nat) : (trunc8 v).toNat = v % 256 := by simp [trunc8]

/-- A write to one valid register leaves what every other index byte reads as, an invalid one included (R37). -/
theorem readReg_set_ne (s : State) (q r v : Byte) (hr : r.toNat < 8) (h : q ≠ r) :
    readReg q { s with regs := s.regs.set ⟨r.toNat, hr⟩ v } = readReg q s := by
  by_cases hq : q.toNat < 8
  · have hne : (⟨q.toNat, hq⟩ : Fin 8) ≠ ⟨r.toNat, hr⟩ := ne_index_of_regByte_ne hr (by rwa [regByte_index q hq])
    rw [readReg_valid q _ hq, readReg_valid q _ hq, get_set_ne _ _ _ _ hne]
  · rw [readReg_invalid q _ hq, readReg_invalid q _ hq]

/-! ### The handlers on valid operands -/

theorem exec_ldi_valid (a b : Byte) (s : State) (ha : a.toNat < 8) :
    exec (.ldi a b) s = .next { s with regs := s.regs.set ⟨a.toNat, ha⟩ b } := by
  simp [exec, execLdi, writeReg_valid a _ s ha]

theorem exec_prn_valid (a : Byte) (s : State) (ha : a.toNat < 8) :
    exec (.prn a) s = .next (emit (s.regs.get ⟨a.toNat, ha⟩) s) := by
  simp [exec, execPrn, readReg_valid a s ha, bind, Except.bind, pure, Except.pure]

theorem exec_mul_valid (a b : Byte) (s : State) (ha : a.toNat < 8) (hb : b.toNat < 8) :
    exec (.mul a b) s = .next { s with
      regs := s.regs.set ⟨a.toNat, ha⟩ (alu .mul (s.regs.get ⟨a.toNat, ha⟩) (s.regs.get ⟨b.toNat, hb⟩)) } := by
  simp [exec, execMul, readReg_valid a s ha, readReg_valid b s hb, writeReg_valid a _ s ha, bind, Except.bind]

theorem exec_push_valid (a : Byte) (s : State) (ha : a.toNat < 8) :
    exec (.push a) s = .next { s with
      regs := s.regs.set 7 (s.regs.get 7 - 1#8)
      mem := s.mem.set (s.regs.get 7 - 1#8).toNat ((s.regs.set 7 (s.regs.get 7 - 1#8)).get ⟨a.toNat, ha⟩) } := by
  rw [exec, execPush, pushUnder_valid _ a s ha rfl, settle_ok]

theorem exec_pop_valid (a : Byte) (s : State) (ha : a.toNat < 8) :
    exec (.pop a) s = .next { s with
      regs := (s.regs.set ⟨a.toNat, ha⟩ (s.mem.get (s.regs.get 7).toNat)).set 7
        ((s.regs.set ⟨a.toNat, ha⟩ (s.mem.get (s.regs.get 7).toNat)).get 7 + 1#8) } := by
  rw [exec, execPop, popUnder_valid _ a s ha rfl, settle_ok]

/-! ### The handlers on an invalid operand -/

/-- MUL checks both its operands before it writes (R160, R184). -/
theorem exec_mul_invalid (a b : Byte) (s : State) (h : ¬ (a.toNat < 8 ∧ b.toNat < 8)) :
    exec (.mul a b) s = .next (s.raise .outOfBounds) := by
  by_cases ha : a.toNat < 8
  · have hb : ¬ b.toNat < 8 := fun hb => h ⟨ha, hb⟩
    simp [exec, execMul, readReg_valid a s ha, readReg_invalid b s hb, bind, Except.bind]
  · simp [exec, execMul, readReg_invalid a s ha, bind, Except.bind]

/-- An instruction that names a register above R7 takes `OutOfBounds` (R23, R24, R182). -/
theorem exec_of_not_wellFormed (i : Instr) (s : State) (h : i.wellFormed = false) :
    exec i s = .next (s.raise .outOfBounds) := by
  cases i with
  | hlt => cases h
  | ldi a b =>
    have ha := (validIndex_eq_false a).1 h
    rw [exec, execLdi, writeReg_invalid a _ s ha, settle_error]
  | prn a =>
    have ha := (validIndex_eq_false a).1 h
    simp [exec, execPrn, readReg_invalid a s ha, bind, Except.bind]
  | mul a b =>
    refine exec_mul_invalid a b s fun ⟨ha, hb⟩ => ?_
    simp [Instr.wellFormed, ha, hb] at h
  | push a =>
    have ha := (validIndex_eq_false a).1 h
    rw [exec, execPush, pushUnder_invalid _ a s ha, settle_error]
  | pop a =>
    have ha := (validIndex_eq_false a).1 h
    rw [exec, execPop, popUnder_invalid _ a s ha, settle_error]

/-! ### What a handler that completes does -/

/-- `Completes i s t`: the instruction `i`, its register operands valid, takes the state `s` to `t` (R140, R145, R150,
R160, R166, R168). `exec_completes` and `exec_cases` tie it to `exec`. -/
inductive Completes : Instr → State → State → Prop where
  | hlt (s : State) : Completes .hlt s (clearRunning s)
  | ldi (a b : Byte) (s : State) (ha : a.toNat < 8) :
      Completes (.ldi a b) s { s with regs := s.regs.set ⟨a.toNat, ha⟩ b }
  | prn (a : Byte) (s : State) (ha : a.toNat < 8) : Completes (.prn a) s (emit (s.regs.get ⟨a.toNat, ha⟩) s)
  | mul (a b : Byte) (s : State) (ha : a.toNat < 8) (hb : b.toNat < 8) :
      Completes (.mul a b) s { s with
        regs := s.regs.set ⟨a.toNat, ha⟩ (alu .mul (s.regs.get ⟨a.toNat, ha⟩) (s.regs.get ⟨b.toNat, hb⟩)) }
  | push (a : Byte) (s : State) (ha : a.toNat < 8) :
      Completes (.push a) s { s with
        regs := s.regs.set 7 (s.regs.get 7 - 1#8)
        mem := s.mem.set (s.regs.get 7 - 1#8).toNat ((s.regs.set 7 (s.regs.get 7 - 1#8)).get ⟨a.toNat, ha⟩) }
  | pop (a : Byte) (s : State) (ha : a.toNat < 8) :
      Completes (.pop a) s { s with
        regs := (s.regs.set ⟨a.toNat, ha⟩ (s.mem.get (s.regs.get 7).toNat)).set 7
          ((s.regs.set ⟨a.toNat, ha⟩ (s.mem.get (s.regs.get 7).toNat)).get 7 + 1#8) }

/-- A well-formed instruction completes from every state. -/
theorem exec_completes (i : Instr) (s : State) (h : i.wellFormed = true) : ∃ t, exec i s = .next t ∧ Completes i s t := by
  cases i with
  | hlt => exact ⟨_, rfl, .hlt s⟩
  | ldi a b =>
    have ha := (validIndex_eq_true a).1 h
    exact ⟨_, exec_ldi_valid a b s ha, .ldi a b s ha⟩
  | prn a =>
    have ha := (validIndex_eq_true a).1 h
    exact ⟨_, exec_prn_valid a s ha, .prn a s ha⟩
  | mul a b =>
    obtain ⟨ha, hb⟩ : a.toNat < 8 ∧ b.toNat < 8 := by simpa [Instr.wellFormed] using h
    exact ⟨_, exec_mul_valid a b s ha hb, .mul a b s ha hb⟩
  | push a =>
    have ha := (validIndex_eq_true a).1 h
    exact ⟨_, exec_push_valid a s ha, .push a s ha⟩
  | pop a =>
    have ha := (validIndex_eq_true a).1 h
    exact ⟨_, exec_pop_valid a s ha, .pop a s ha⟩

/-- All that a handler can do: a well-formed instruction completes, any other takes `OutOfBounds`. -/
theorem exec_cases {i : Instr} {s t : State} (h : exec i s = .next t) :
    (i.wellFormed = true ∧ Completes i s t) ∨ (i.wellFormed = false ∧ t = s.raise .outOfBounds) := by
  cases hw : i.wellFormed with
  | true =>
    obtain ⟨u, hu, hcomp⟩ := exec_completes i s hw
    obtain rfl : u = t := Host.Outcome.next.inj (hu.symm.trans h)
    exact .inl ⟨rfl, hcomp⟩
  | false => exact .inr ⟨rfl, (Host.Outcome.next.inj ((exec_of_not_wellFormed i s hw).symm.trans h)).symm⟩

/-! ### Frames of a handler that completes -/

section
variable {i : Instr} {s t : State}

theorem Completes.pc_eq (h : Completes i s t) : t.pc = s.pc := by cases h <;> rfl

theorem Completes.runState_eq (h : Completes i s t) : t.runState = s.runState := by cases h <;> rfl

theorem Completes.faultReason_eq (h : Completes i s t) : t.faultReason = s.faultReason := by cases h <;> rfl

/-- HLT alone writes the Running flag (R28). -/
theorem Completes.running_eq (h : Completes i s t) (hi : i ≠ .hlt) : t.running = s.running := by
  cases h with
  | hlt => exact absurd rfl hi
  | ldi | prn | mul | push | pop => rfl

/-- PRN alone writes the output, and appends one element (R31, R150). -/
theorem Completes.out_cases (h : Completes i s t) : t.out = s.out ∨ ∃ a v, i = .prn a ∧ t.out = s.out ++ [v] := by
  cases h with
  | prn a => exact .inr ⟨a, _, rfl, rfl⟩
  | hlt | ldi | mul | push | pop => exact .inl rfl

/-- PUSH alone writes memory, at an address that is a byte, so the canonical form is kept. -/
theorem Completes.mem_wf (h : Completes i s t) (hs : s.mem.wf = true) : t.mem.wf = true := by
  cases h with
  | push a => exact wf_set _ _ _ hs (s.regs.get 7 - 1#8).isLt
  | hlt | ldi | prn | mul | pop => exact hs

/-- The registers outside R25's writes column are unchanged. -/
theorem Completes.regs_get_eq (h : Completes i s t) (r : Fin 8) (hr : regByte r ∉ writtenRegs i) :
    t.regs.get r = s.regs.get r := by
  cases h with
  | hlt | prn => rfl
  | ldi a b s ha => exact get_set_ne _ _ _ _ (ne_index_of_regByte_ne ha (List.ne_of_not_mem_cons hr))
  | mul a b s ha hb => exact get_set_ne _ _ _ _ (ne_index_of_regByte_ne ha (List.ne_of_not_mem_cons hr))
  | push a s ha => exact get_set_ne _ _ _ _ (ne_seven_of_regByte_ne (List.ne_of_not_mem_cons hr))
  | pop a s ha =>
    have hdst := ne_index_of_regByte_ne ha (List.ne_of_not_mem_cons hr)
    have hsp := ne_seven_of_regByte_ne (List.ne_of_not_mem_cons (List.not_mem_of_not_mem_cons hr))
    exact (get_set_ne _ _ _ _ hsp).trans (get_set_ne _ _ _ _ hdst)

end

/-! ### What a fetch answers -/

/-- The operands of an instruction are those of its own handler. -/
theorem handler_of_withOperands {h : Handler} {ops : List Byte} {i : Instr} (hi : h.withOperands ops = some i) :
    i.handler = h := by
  unfold Handler.withOperands at hi
  split at hi <;> cases hi <;> rfl

/-- Bytes that decode begin with the opcode of the instruction they decode to, and the decoder's outputs are that
opcode's (R82, R86). -/
theorem decode_cons {op : Byte} {rest : List Byte} {d : Decoded} (h : decode (op :: rest) = .ok d) :
    op = d.instr.opcode ∧ d.fields = decodeFields d.instr.opcode := by
  simp only [decode] at h
  split at h
  · cases h
  · next hd hfind =>
    split at h
    · cases h
    · split at h
      · next i hops =>
        cases h
        have hop : op = i.opcode := by rw [Instr.opcode, handler_of_withOperands hops]; exact findHandler_some op hd hfind
        exact ⟨hop, by rw [hop]⟩
      · cases h

/-- A fetch that answers reads an opcode that exists, and gives the instruction and the outputs of that opcode (R112 to
R116). -/
theorem fetch_ok {s : State} {f : Fetched} (h : fetch .byCount s = .ok f) :
    s.pc.toNat < memSize ∧ s.mem.get s.pc.toNat = f.instr.opcode ∧ f.fields = decodeFields f.instr.opcode := by
  rw [fetch_byCount] at h
  by_cases hp : s.pc.toNat < memSize
  · rw [bytesFrom_succ _ _ _ hp, decodeFetched] at h
    split at h
    · next d hd =>
      cases h
      exact ⟨hp, decode_cons hd⟩
    · cases h
  · rw [bytesFrom_ge _ _ _ (by omega)] at h
    cases h

/-! ### What a cycle can do -/

/-- All that a step can do, the fault of the fetch and the fault of the handler told apart by nothing but their kind: it
takes a fault, or the instruction at `pc` completes and the loop finishes the cycle (R112 to R122). -/
theorem step_faults_or_completes {s t : State} (h : step s = .next t) :
    s.canCycle ∧
      ((∃ k, t = (startCycle s).raise k) ∨
        ∃ i u, s.pc.toNat < memSize ∧ s.mem.get s.pc.toNat = i.opcode ∧ Completes i (startCycle s) u ∧
          t = afterHandler (decodeFields i.opcode).operandCount u) := by
  obtain ⟨hc, ⟨k, -, rfl⟩ | ⟨f, u, hf, he, rfl⟩⟩ := step_cases s t h
  · exact ⟨hc, .inl ⟨k, rfl⟩⟩
  · obtain ⟨hp, hop, hfields⟩ := fetch_ok hf
    obtain ⟨-, hcomp⟩ | ⟨-, rfl⟩ := exec_cases he
    · exact ⟨hc, .inr ⟨f.instr, u, hp, hop, hcomp, by rw [hfields]⟩⟩
    · exact ⟨hc, .inl ⟨.outOfBounds, afterHandler_faulted _ _ rfl⟩⟩

/-- The loop writes no output after the handler. -/
@[simp] theorem afterHandler_out (n : BitVec 2) (s : State) : (afterHandler n s).out = s.out := by
  unfold afterHandler
  split
  · rfl
  · split <;> rfl

/-- The loop leaves the run state or makes it `halted` (R118). -/
theorem afterHandler_runState (n : BitVec 2) (s : State) :
    (afterHandler n s).runState = s.runState ∨ (afterHandler n s).runState = .halted := by
  unfold afterHandler
  split
  · exact .inl rfl
  · split
    · exact .inr rfl
    · exact .inl rfl

/-! ### The invariant -/

/-- In a state of the invariant that can cycle, the Running flag is true and no fault is recorded (R38). -/
theorem inv_canCycle {s : State} (hi : s.Inv) (hc : s.canCycle) : s.running = true ∧ s.faultReason = none := by
  obtain ⟨-, hrun, -, hfault, -⟩ := hi
  rcases hc with h | h <;> simpa [h] using And.intro hrun hfault

/-- Taking a fault in a cycle keeps the invariant: the Running flag stays true (R183; D16). -/
theorem inv_raise {s : State} (k : FaultKind) (hi : s.Inv) (hc : s.canCycle) : ((startCycle s).raise k).Inv := by
  obtain ⟨hrun, -⟩ := inv_canCycle hi hc
  obtain ⟨hwf, -, hpc, -, -⟩ := hi
  exact ⟨hwf, by simp [hrun], hpc, by simp, by simp⟩

/-- The address after an instruction whose opcode exists is at most 258: the 9-bit sum does not wrap (R27, R119; D1). -/
theorem pc_advance_le (pc : PcWord) (h : Handler) (hp : pc.toNat < memSize) :
    (pc + 1#9 + BitVec.ofNat 9 (decodeFields h.opcode).operandCount.toNat).toNat ≤ 258 := by
  have hn := operandCount_le h
  have hp' : pc.toNat < 256 := hp
  simp only [BitVec.toNat_add, BitVec.toNat_ofNat]
  omega

/-- The end of a cycle whose instruction completed keeps the invariant: HLT ends in `halted` with the flag cleared, any
other instruction in `running` with the flag set. -/
theorem inv_afterHandler {s u : State} {i : Instr} (hi : s.Inv) (hc : s.canCycle) (hp : s.pc.toNat < memSize)
    (hcomp : Completes i (startCycle s) u) : (afterHandler (decodeFields i.opcode).operandCount u).Inv := by
  obtain ⟨-, hnone⟩ := inv_canCycle hi hc
  have hwf : u.mem.wf = true := hcomp.mem_wf hi.1
  have hpc : u.pc = s.pc := hcomp.pc_eq
  have hrs : u.runState = .running := hcomp.runState_eq
  have hreason : u.faultReason = none := hcomp.faultReason_eq.trans hnone
  cases hrun : u.running with
  | false =>
    rw [afterHandler_halted _ _ (by simp [hrs]) hrun]
    exact ⟨hwf, by simp [hrun], by rw [hpc]; omega, by simp [hreason], by simp⟩
  | true =>
    rw [afterHandler_advance _ _ (by simp [hrs]) hrun]
    exact ⟨hwf, by simp [hrun, hrs], by rw [hpc]; exact pc_advance_le s.pc i.handler hp, by simp [hreason, hrs],
      by simp [hrs]⟩

end Sys2Proof.Machine
end

/-! The statements about the architectural state (`10_state.md`). -/
section
namespace Sys2Proof.Machine

/-- Settles O38: a cycle takes a fault or its instruction completes, and either end keeps the invariant. -/
theorem stepKeepsInvariant : Obligations.StepKeepsInvariant := by
  intro s t hi h
  obtain ⟨hc, ⟨k, rfl⟩ | ⟨i, u, hp, -, hcomp, rfl⟩⟩ := step_faults_or_completes h
  · exact inv_raise k hi hc
  · exact inv_afterHandler hi hc hp hcomp

/-- Settles O21. -/
theorem badRegisterIndexTakesOutOfBounds : Obligations.BadRegisterIndexTakesOutOfBounds :=
  exec_of_not_wellFormed

/-- Settles O22: the frames of a handler that completes. -/
theorem wellFormedInstructionsComplete : Obligations.WellFormedInstructionsComplete := by
  intro i s hw
  obtain ⟨t, ht, hcomp⟩ := exec_completes i s hw
  exact ⟨t, ht, hcomp.pc_eq, hcomp.runState_eq, hcomp.faultReason_eq⟩

/-- Settles O23: a fault writes no register, a handler that completes only the listed ones. -/
theorem onlyListedRegistersChange : Obligations.OnlyListedRegistersChange := by
  intro i s t h r hr
  obtain ⟨-, hcomp⟩ | ⟨-, rfl⟩ := exec_cases h
  · exact hcomp.regs_get_eq r hr
  · rfl

/-- Settles O25: the frames of a handler that completes, and those of a fault, which an ill-formed instruction alone
takes. -/
theorem controlStateFrame : Obligations.ControlStateFrame := by
  intro i s t h
  obtain ⟨-, hcomp⟩ | ⟨hw, rfl⟩ := exec_cases h
  · refine ⟨hcomp.pc_eq, hcomp.running_eq, fun hprn => ?_, fun _ => ⟨hcomp.runState_eq, hcomp.faultReason_eq⟩⟩
    obtain hout | ⟨a, _, rfl, _⟩ := hcomp.out_cases
    · exact hout
    · exact absurd rfl (hprn a)
  · exact ⟨rfl, fun _ => rfl, fun _ => rfl, fun hw' => absurd hw' (by simp [hw])⟩

/-- Settles O36: a cycle marks the state `running` first, and from there its end is `faulted`, `halted` or `running`. -/
theorem firstCycleLeavesReady : Obligations.FirstCycleLeavesReady := by
  constructor
  · intro s hs
    simp [step, cycleWith, startCycle, hs]
  · intro s t h
    obtain ⟨-, ⟨k, rfl⟩ | ⟨i, u, -, -, hcomp, rfl⟩⟩ := step_faults_or_completes h
    · simp
    · have hu : u.runState = .running := hcomp.runState_eq
      rcases afterHandler_runState (decodeFields i.opcode).operandCount u with hr | hr <;> simp [hr, hu]

/-- Settles O42: of what a cycle can do, a PRN that completes alone writes the output. -/
theorem outputOnlyGrows : Obligations.OutputOnlyGrows := by
  intro s t h
  obtain ⟨-, ⟨k, rfl⟩ | ⟨i, u, -, hop, hcomp, rfl⟩⟩ := step_faults_or_completes h
  · exact .inl rfl
  · rw [afterHandler_out]
    obtain hout | ⟨a, v, rfl, hout⟩ := hcomp.out_cases
    · exact .inl hout
    · exact .inr ⟨hop, v, hout⟩

/-- Settles O6. -/
theorem registerWriteThenRead : Obligations.RegisterWriteThenRead := by
  intro s r v hr
  have hr' : r.toNat < 8 := Nat.lt_succ_of_le hr
  refine ⟨_, writeReg_valid r v.toNat s hr', ?_, fun q hq => readReg_set_ne s q r _ hr' hq, rfl,
    ⟨rfl, rfl, rfl, rfl⟩, rfl⟩
  rw [readReg_valid r _ hr', get_set_same, trunc8_toNat]

/-- Settles O7. -/
theorem registerReadChecksIndex : Obligations.RegisterReadChecksIndex := by
  intro s b
  exact ⟨fun h => readReg_valid b s (Nat.lt_succ_of_le h), fun h => readReg_invalid b s (by omega)⟩

/-- Settles O8. -/
theorem registerWriteMasksAndChecks : Obligations.RegisterWriteMasksAndChecks := by
  intro s b v
  refine ⟨fun h => ?_, fun h => writeReg_invalid b v s (by omega)⟩
  have hb : b.toNat < 8 := Nat.lt_succ_of_le h
  refine ⟨_, trunc8 v, writeReg_valid b v s hb, ?_, toNat_trunc8 v⟩
  rw [readReg_valid b _ hb, get_set_same]

/-- Settles O12: every field at its reset value, and no memory cell listed. -/
theorem resetValues : Obligations.ResetValues :=
  ⟨by decide, rfl, fun _ => rfl, rfl, rfl, rfl, rfl⟩

/-- Settles O37. -/
theorem resetMeetsInvariant : Obligations.ResetMeetsInvariant :=
  ⟨wf_reset _, by decide, by decide, by decide, fun _ => ⟨rfl, rfl⟩⟩

end Sys2Proof.Machine
end

/-! What memory keeps of a cycle, when two memories are the same data, and the step of an instruction whose bytes stand
at `pc`: the layer the statements about memory rest on. -/
section
namespace Sys2Proof.Machine

/-! ### The canonical form -/

/-- The canonical form of a list with a first cell, clause by clause. -/
theorem wfFrom_cons {lo k : Nat} {v : Byte} {m : Memory} :
    Memory.wfFrom lo ((k, v) :: m) = true ↔ lo ≤ k ∧ k < memSize ∧ v ≠ memReset ∧ Memory.wfFrom (k + 1) m = true := by
  simp [Memory.wfFrom, and_assoc]

@[simp] theorem get_head (k : Nat) (v : Byte) (m : Memory) : Memory.get ((k, v) :: m) k = v := if_pos rfl

/-- A cell that does not hold `memReset` does not lie below the addresses a canonical list may hold. -/
theorem wfFrom_le_of_get_ne {lo a : Nat} {m : Memory} (hm : Memory.wfFrom lo m = true) (ha : m.get a ≠ memReset) :
    lo ≤ a := by
  by_contra hlt
  exact ha (get_of_lt m lo a hm (by omega))

/-- Canonical lists with the same first cell that read the same have tails that read the same: below the tails both read
`memReset`. -/
theorem tail_get_eq {k : Nat} {v : Byte} {m n : Memory} (hm : Memory.wfFrom (k + 1) m = true)
    (hn : Memory.wfFrom (k + 1) n = true) {a : Nat} (h : Memory.get ((k, v) :: m) a = Memory.get ((k, v) :: n) a) :
    m.get a = n.get a := by
  by_cases ha : a = k
  · rw [get_of_lt m (k + 1) a hm (by omega), get_of_lt n (k + 1) a hn (by omega)]
  · simpa [Memory.get, ha] using h

/-- A canonical list is determined by what it reads: two first cells lie at one address, since neither holds `memReset`
and so neither lies below the other. -/
theorem wfFrom_ext {m n : Memory} {lo : Nat} (hm : Memory.wfFrom lo m = true) (hn : Memory.wfFrom lo n = true)
    (h : ∀ a, a < memSize → m.get a = n.get a) : m = n := by
  induction m generalizing n lo with
  | nil =>
    cases n with
    | nil => rfl
    | cons d n =>
      obtain ⟨k, w⟩ := d
      obtain ⟨-, hk, hw, -⟩ := wfFrom_cons.1 hn
      exact absurd ((h k hk).trans (get_head k w n)).symm hw
  | cons c m ih =>
    obtain ⟨j, v⟩ := c
    obtain ⟨-, hj, hv, hmtail⟩ := wfFrom_cons.1 hm
    have hvn : n.get j = v := (h j hj).symm.trans (get_head j v m)
    cases n with
    | nil => exact absurd hvn.symm hv
    | cons d n =>
      obtain ⟨k, w⟩ := d
      obtain ⟨-, hk, hw, hntail⟩ := wfFrom_cons.1 hn
      have hwm : Memory.get ((j, v) :: m) k = w := (h k hk).trans (get_head k w n)
      have hkj : k ≤ j :=
        wfFrom_le_of_get_ne (wfFrom_cons.2 ⟨le_refl k, hk, hw, hntail⟩) (by rwa [hvn])
      have hjk : j ≤ k :=
        wfFrom_le_of_get_ne (wfFrom_cons.2 ⟨le_refl j, hj, hv, hmtail⟩) (by rwa [hwm])
      obtain rfl : j = k := Nat.le_antisymm hjk hkj
      obtain rfl : v = w := (get_head j v m).symm.trans hwm
      rw [ih hmtail hntail fun a ha => tail_get_eq hmtail hntail (h a ha)]

/-! ### Reads after a write -/

/-- A read reports the cell alone: it depends on no other item of the state (R51). -/
theorem memRead_congr {a : Nat} {s t : State} (h : t.mem.get a = s.mem.get a) : memRead a t = memRead a s := by
  simp only [memRead, h]

/-! ### What a handler that completes does to memory -/

section
variable {i : Instr} {s t : State}

/-- PUSH alone writes memory (R53). -/
theorem Completes.mem_eq (h : Completes i s t) (hi : i.opcode ≠ 0x45#8) : t.mem = s.mem := by
  cases h with
  | push => exact absurd rfl hi
  | hlt | ldi | prn | mul | pop => rfl

/-- Only the cell at the stored address changes (R65, R166). -/
theorem Completes.mem_get_eq (h : Completes i s t) {a : Nat} (ha : storeAddress i s ≠ some a) :
    t.mem.get a = s.mem.get a := by
  cases h with
  | push b s hb =>
    have hne : a ≠ (s.regs.get 7 - 1#8).toNat := by
      rintro rfl
      exact ha (if_pos ((validIndex_eq_true b).2 hb))
    exact mem_get_set_ne _ _ _ _ hne
  | hlt | ldi | prn | mul | pop => rfl

/-- An instruction that stores does so one below the stack pointer, modulo 256 (R166). -/
theorem storeAddress_eq_some {a : Nat} (h : storeAddress i s = some a) : a = (s.regs.get 7 - 1#8).toNat := by
  cases i with
  | push b => exact (Option.some.inj (Option.ite_none_right_eq_some.1 h).2).symm
  | hlt | ldi | prn | mul | pop => cases h

end

/-- The loop writes no memory after the handler. -/
@[simp] theorem afterHandler_mem (n : BitVec 2) (s : State) : (afterHandler n s).mem = s.mem := by
  unfold afterHandler
  split
  · rfl
  · split <;> rfl

/-! ### The step of an instruction whose bytes stand at `pc` -/

/-- The bytes of an instruction are one more than the operand count of its opcode (R87, R91). -/
theorem encode_length (i : Instr) : (encode i).length = 1 + (decodeFields i.opcode).operandCount.toNat := by
  cases i with
  | hlt => exact Laws.Length.hlt.1
  | ldi a b => exact (Laws.Length.ldi a b).1
  | prn a => exact (Laws.Length.prn a).1
  | mul a b => exact (Laws.Length.mul a b).1
  | push a => exact (Laws.Length.push a).1
  | pop a => exact (Laws.Length.pop a).1

theorem operands_length (i : Instr) : i.operands.length = (decodeFields i.opcode).operandCount.toNat := by
  have hlen := encode_length i
  rw [encode, List.length_cons] at hlen
  omega

theorem withOperands_operands (i : Instr) : i.handler.withOperands i.operands = some i := by cases i <;> rfl

theorem decodeFetched_encode (i : Instr) : decodeFetched (encode i) = .ok ⟨decodeFields i.opcode, i⟩ := by
  have hfind : findHandler i.opcode = some i.handler := findHandler_opcode i.handler
  simp [decodeFetched, encode, decode, hfind, ← operands_length, withOperands_operands]

/-- A fetch where the bytes of an instruction stand answers that instruction, whatever follows them (R112 to R116). -/
theorem fetch_of_encode {s : State} {i : Instr} (h : s.mem.bytesFrom s.pc.toNat (encode i).length = encode i) :
    fetch .byCount s = .ok ⟨decodeFields i.opcode, i⟩ := by
  have hp : s.pc.toNat < memSize := by
    by_contra hge
    rw [bytesFrom_ge _ _ _ (by omega)] at h
    cases h
  have hcount : i.operands.length ≤ 2 := by rw [operands_length]; exact operandCount_le i.handler
  obtain ⟨hop, hops⟩ : s.mem.get s.pc.toNat = i.opcode ∧
      s.mem.bytesFrom (s.pc.toNat + 1) i.operands.length = i.operands := by
    rw [encode, List.length_cons, bytesFrom_succ _ _ _ hp] at h
    exact List.cons.inj h
  calc fetch .byCount s
      = decodeFetched (i.opcode :: s.mem.bytesFrom (s.pc.toNat + 1) 2) := by
        rw [fetch_byCount, bytesFrom_succ _ _ _ hp, hop]
    _ = decodeFetched (encode i) :=
        decodeFetched_cons i.opcode i.handler (findHandler_opcode i.handler) _ _ (operands_length i)
          (by rw [bytesFrom_take _ _ _ _ hcount, hops])
    _ = .ok ⟨decodeFields i.opcode, i⟩ := decodeFetched_encode i

/-- The step where the bytes of an instruction stand is its handler and the end of the cycle (R117 to R121). -/
theorem step_of_encode {s u : State} {i : Instr} (hc : s.canCycle)
    (h : s.mem.bytesFrom s.pc.toNat (encode i).length = encode i) (he : exec i (startCycle s) = .next u) :
    step s = .next (afterHandler (decodeFields i.opcode).operandCount u) := by
  have hf : fetch .byCount (startCycle s) = .ok ⟨decodeFields i.opcode, i⟩ := fetch_of_encode h
  exact step_fetch_ok s u ⟨decodeFields i.opcode, i⟩ hc hf he

/-- Where neither a fault nor HLT ends the run, `pc` moves past the instruction's bytes (R119). -/
theorem step_advances {s u : State} {i : Instr} (hc : s.canCycle)
    (h : s.mem.bytesFrom s.pc.toNat (encode i).length = encode i) (he : exec i (startCycle s) = .next u)
    (hrs : u.runState ≠ .faulted) (hrun : u.running = true) :
    step s = .next { u with pc := u.pc + BitVec.ofNat 9 (encode i).length } := by
  rw [step_of_encode hc h he, afterHandler_advance _ _ hrs hrun, encode_length, BitVec.ofNat_add, ← BitVec.add_assoc]

/-- The step at HLT, at every address of memory (R140). -/
theorem step_hlt {s : State} (hc : s.canCycle) (hp : s.pc.toNat < memSize) (hop : s.mem.get s.pc.toNat = 0x01#8) :
    step s = .next { s with running := false, runState := .halted } := by
  have hbytes : s.mem.bytesFrom s.pc.toNat 1 = encode .hlt := by
    rw [bytesFrom_succ _ _ _ hp, hop]
    rfl
  rw [step_of_encode (i := .hlt) hc hbytes rfl, afterHandler_halted _ _ (by simp) rfl]
  rfl

/-- The step at PUSH of a valid register whose two bytes exist (R166). -/
theorem step_push {s : State} (hc : s.canCycle) (hrun : s.running = true) (hp : s.pc.toNat + 1 < memSize)
    (hop : s.mem.get s.pc.toNat = 0x45#8) (ha : (s.mem.get (s.pc.toNat + 1)).toNat < 8) :
    step s = .next { s with
      regs := s.regs.set 7 (s.regs.get 7 - 1#8)
      mem := s.mem.set (s.regs.get 7 - 1#8).toNat ((s.regs.set 7 (s.regs.get 7 - 1#8)).get ⟨_, ha⟩)
      pc := s.pc + 2#9
      runState := .running } := by
  have hbytes : s.mem.bytesFrom s.pc.toNat 2 = encode (.push (s.mem.get (s.pc.toNat + 1))) := by
    rw [bytesFrom_succ _ _ _ (by omega), bytesFrom_succ _ _ _ hp, hop]
    rfl
  exact step_advances (i := .push _) hc hbytes (exec_push_valid _ (startCycle s) ha) nofun hrun

end Sys2Proof.Machine
end

/-! The statements about memory (`20_memory.md`). -/
section
namespace Sys2Proof.Machine

/-- Settles O9. -/
theorem memoryReadChecksAddress : Obligations.MemoryReadChecksAddress := by
  intro s addr
  exact ⟨memRead_lt addr s, memRead_ge addr s⟩

/-- Settles O10: the laws of reads after a write to the same and to another cell. -/
theorem memoryWriteThenRead : Obligations.MemoryWriteThenRead := by
  intro s addr v hwf
  refine ⟨fun haddr => ?_, memWrite_ge addr v s⟩
  have hwrite := memWrite_lt addr v s haddr
  refine ⟨_, trunc8 v, hwrite, ?_, toNat_trunc8 v, fun a ha => memRead_congr (mem_get_set_ne _ _ _ _ ha), rfl,
    memWrite_wf addr v s _ hwrite hwf⟩
  rw [memRead_lt addr _ haddr, mem_get_set_same _ _ 0 _ hwf]

/-- Settles O11. -/
theorem equalMemoriesAreEqualData : Obligations.EqualMemoriesAreEqualData := by
  intro m n hm hn h
  exact wfFrom_ext hm hn h

/-- Settles O24: a fault writes no cell, a handler that completes only the stored one. -/
theorem onlyTheStoredByteChanges : Obligations.OnlyTheStoredByteChanges := by
  intro i s t h a ha
  obtain ⟨-, hcomp⟩ | ⟨-, rfl⟩ := exec_cases h
  · exact hcomp.mem_get_eq ha
  · rfl

/-- Settles O45: of what a cycle can do, a PUSH that completes alone writes memory, one below the stack pointer. -/
theorem onlyPushWritesMemory : Obligations.OnlyPushWritesMemory := by
  intro s t h
  obtain ⟨-, ⟨k, rfl⟩ | ⟨i, u, -, hop, hcomp, rfl⟩⟩ := step_faults_or_completes h
  · exact ⟨fun _ => rfl, fun _ _ => rfl⟩
  · rw [afterHandler_mem]
    refine ⟨fun hpush => hcomp.mem_eq (by rwa [← hop]), fun a ha => hcomp.mem_get_eq fun hstore => ?_⟩
    exact ha (storeAddress_eq_some hstore)

/-- Settles O48: the cycle of the PUSH leaves `pc` at the cell it stored to, and the next one fetches from there. -/
theorem fetchSeesThePush : Obligations.FetchSeesThePush := by
  rintro s _ ha hc hrun hwf hpc hop rfl hsp
  have hreg : (⟨_, Nat.lt_succ_of_lt ha⟩ : Fin 8) ≠ 7 := Fin.ne_of_lt ha
  have hnext : (s.pc + 2#9).toNat = (s.regs.get 7 - 1#8).toNat := by
    rw [BitVec.toNat_add, BitVec.toNat_ofNat, hsp]
    omega
  have hbound : (s.pc + 2#9).toNat < memSize := hnext ▸ (s.regs.get 7 - 1#8).isLt
  refine ⟨_, step_push hc hrun (Nat.lt_succ_of_le (by omega)) hop (Nat.lt_succ_of_lt ha), ?_, fun hhlt => ?_⟩
  · rw [memRead_lt _ _ hbound, hnext, mem_get_set_same _ _ 0 _ hwf, get_set_ne _ _ _ _ hreg]
  · refine step_hlt (.inr rfl) hbound ?_
    rw [hnext, mem_get_set_same _ _ 0 _ hwf, get_set_ne _ _ _ _ hreg, hhlt]

end Sys2Proof.Machine
end

/-! SUPPORT. The decoder against the encoder, and the bytes that have no handler (rules R80 to R88). -/
section
namespace Sys2Proof.Machine

/-- The operand bytes of an instruction are those it was built from: none is lost or reordered (R80, R84). -/
theorem operands_of_withOperands {h : Handler} {ops : List Byte} {i : Instr} (hi : h.withOperands ops = some i) :
    i.operands = ops := by
  unfold Handler.withOperands at hi
  split at hi <;> cases hi <;> rfl

/-- The bytes after the opcode that decode are the operands, then the rest (R80, R85). -/
theorem operands_append_rest_of_decode {op : Byte} {tail : List Byte} {d : Decoded} (h : decode (op :: tail) = .ok d) :
    d.instr.operands ++ d.rest = tail := by
  simp only [decode] at h
  split at h
  · cases h
  · split at h
    · cases h
    · split at h
      · next i hops =>
        cases h
        rw [operands_of_withOperands hops, List.take_append_drop]
      · cases h

/-- The decoder on an instruction's bytes takes its operands and leaves what follows (R80, R85, R86). -/
theorem decode_encode_append (i : Instr) (rest : List Byte) :
    decode (encode i ++ rest) = .ok ⟨decodeFields i.opcode, i, rest⟩ := by
  have hfind : findHandler i.opcode = some i.handler := findHandler_opcode i.handler
  have htake : (i.operands ++ rest).take (decodeFields i.opcode).operandCount.toNat = i.operands := by
    rw [← operands_length, List.take_left]
  have hdrop : (i.operands ++ rest).drop (decodeFields i.opcode).operandCount.toNat = rest := by
    rw [← operands_length, List.drop_left]
  have hlong : ¬ (i.operands ++ rest).length < (decodeFields i.opcode).operandCount.toNat := by
    rw [List.length_append, operands_length]
    omega
  simp only [encode, List.cons_append, decode, hfind, if_neg hlong, htake, hdrop, withOperands_operands]

/-- A byte without a handler is one that is no handler's opcode (R88). -/
theorem findHandler_eq_none_iff (op : Byte) : findHandler op = none ↔ ∀ h : Handler, op ≠ h.opcode := by
  refine ⟨?_, fun hne => ?_⟩
  · rintro hnone h rfl
    rw [findHandler_opcode] at hnone
    cases hnone
  · cases hfind : findHandler op with
    | none => rfl
    | some h => exact absurd (findHandler_some op h hfind) (hne h)

/-- The six values no illegal opcode has, as numbers (R86). -/
theorem forall_ne_opcode_iff (op : Byte) : (∀ h : Handler, op ≠ h.opcode) ↔
    op.toNat ≠ 0x01 ∧ op.toNat ≠ 0x82 ∧ op.toNat ≠ 0x47 ∧ op.toNat ≠ 0xA2 ∧ op.toNat ≠ 0x45 ∧ op.toNat ≠ 0x46 := by
  simp only [ne_eq, ← BitVec.toNat_inj]
  refine ⟨fun hne => ⟨hne .hlt, hne .ldi, hne .prn, hne .mul, hne .push, hne .pop⟩, ?_⟩
  rintro ⟨hhlt, hldi, hprn, hmul, hpush, hpop⟩ h
  cases h with
  | hlt => exact hhlt
  | ldi => exact hldi
  | prn => exact hprn
  | mul => exact hmul
  | push => exact hpush
  | pop => exact hpop

/-- Bits 7:6 of a byte as a number (R82). -/
theorem operandCount_toNat (op : Byte) : (decodeFields op).operandCount.toNat = op.toNat / 64 % 4 := by
  simp [decodeFields, Nat.shiftRight_eq_div_pow]

/-- One bit of a byte as arithmetic. -/
theorem getLsbD_eq_true_iff (op : Byte) (k : Nat) : op.getLsbD k = true ↔ op.toNat / 2 ^ k % 2 = 1 := by
  rw [← BitVec.testBit_toNat, Nat.testBit_eq_decide_div_mod_eq, decide_eq_true_iff]

end Sys2Proof.Machine
end

/-! The statements about the encoding (`30_encoding.md`). -/
section
namespace Sys2Proof.Machine

/-- Settles O2: the operand count read off the opcode splits off exactly the instruction's operands. -/
theorem decodeInvertsEncode : Obligations.DecodeInvertsEncode := decode_encode_append

/-- Settles O3: the opcode byte and the bytes after it, each given back. -/
theorem encodeInvertsDecode : Obligations.EncodeInvertsDecode := by
  intro bytes d h
  cases bytes with
  | nil => cases h
  | cons op tail =>
    obtain ⟨hop, hfields⟩ := decode_cons h
    refine ⟨?_, hfields⟩
    rw [encode, List.cons_append, ← hop, operands_append_rest_of_decode h]

/-- Settles O1: each word is the encoding of its instruction, followed by the rest. -/
theorem decodeReadsTableWords : Obligations.DecodeReadsTableWords :=
  ⟨decode_encode_append .hlt [], decode_encode_append (.ldi 3#8 255#8) [], decode_encode_append (.prn 7#8) [],
    decode_encode_append (.mul 2#8 1#8) [], decode_encode_append (.push 0#8) [],
    decode_encode_append (.pop 6#8) [1#8]⟩

/-- Settles O4: the ranges are what the six opcodes leave of 0 to 255. -/
theorem illegalOpcodesAreRejected : Obligations.IllegalOpcodesAreRejected := by
  intro op
  refine ⟨?_, fun hnone rest => by simp only [decode, hnone]⟩
  rw [findHandler_eq_none_iff, forall_ne_opcode_iff]
  have hlt : op.toNat < 256 := op.isLt
  omega

/-- Settles O5: each slice is a quotient by a power of two, and the count is 3 where the byte over 64 is. -/
theorem decoderOutputsAreSlices : Obligations.DecoderOutputsAreSlices := by
  intro op
  refine ⟨operandCount_toNat op, getLsbD_eq_true_iff op 5, getLsbD_eq_true_iff op 4, ?_⟩
  have hlt : op.toNat < 256 := op.isLt
  rw [← BitVec.toNat_inj, operandCount_toNat, BitVec.toNat_ofNat]
  omega

end Sys2Proof.Machine
end

/-! SUPPORT. What a cycle does: what the fetch of either policy answers, the three ends of a cycle, how far `pc`
moves, and what holds of every state of a run (rules R110 to R126). -/
section
namespace Sys2Proof.Machine

/-! ### The step on the bytes at `pc` -/

/-- A cycle takes the fault of the bytes at `pc` when they are no instruction (R112 to R116, R122). -/
theorem step_of_decode_error {s : State} {e : DecodeError} (hc : s.canCycle) (h : decode s.window = .error e) :
    step s = .next { s with runState := .faulted, faultReason := some (decodeErrorKind e) } :=
  step_fetch_error s (decodeErrorKind e) hc (by rw [fetch_window, decodeFetched, h])

/-- A cycle runs the handler of the instruction the bytes at `pc` decode to, and then what follows a handler (R117 to
R121). -/
theorem step_of_decode {s t : State} {d : Decoded} (hc : s.canCycle) (h : decode s.window = .ok d)
    (he : exec d.instr (startCycle s) = .next t) :
    step s = .next (afterHandler (decodeFields d.instr.opcode).operandCount t) := by
  have hfields : d.fields = decodeFields d.instr.opcode := (encodeInvertsDecode _ _ h).2
  rw [step_fetch_ok s t ⟨d.fields, d.instr⟩ hc (by rw [fetch_window, decodeFetched, h]) he, hfields]

/-- The end of a cycle that goes on, with `pc` moved by the length of the instruction's bytes (R91, R119). -/
theorem afterHandler_advance_encode (i : Instr) {t : State} (h : t.runState ≠ .faulted) (hr : t.running = true) :
    afterHandler (decodeFields i.opcode).operandCount t = { t with pc := t.pc + BitVec.ofNat 9 (encode i).length } := by
  rw [afterHandler_advance _ _ h hr, encode_length, BitVec.ofNat_add, ← BitVec.add_assoc]

/-! ### The ends of a cycle -/

/-- A cycle that ends in `faulted` took a fault, since an instruction that completes leaves the run state `running` or
`halted` (R118, R122). -/
theorem step_faulted_cases {s t : State} (h : step s = .next t) (ht : t.runState = .faulted) :
    ∃ k, t = (startCycle s).raise k := by
  obtain ⟨-, hfault | ⟨i, u, -, -, hcomp, rfl⟩⟩ := step_faults_or_completes h
  · exact hfault
  · have hu : u.runState = .running := hcomp.runState_eq
    rcases afterHandler_runState (decodeFields i.opcode).operandCount u with hr | hr <;> simp [hr, hu] at ht

/-- A cycle that ends in `halted` completed an instruction with the Running flag false after it and left `pc` (R118). -/
theorem step_halted_cases {s t : State} (h : step s = .next t) (ht : t.runState = .halted) :
    ∃ i u, s.pc.toNat < memSize ∧ s.mem.get s.pc.toNat = i.opcode ∧ Completes i (startCycle s) u ∧
      u.running = false ∧ t.pc = s.pc := by
  obtain ⟨-, ⟨k, rfl⟩ | ⟨i, u, hp, hop, hcomp, rfl⟩⟩ := step_faults_or_completes h
  · cases ht
  · have hu : u.runState = .running := hcomp.runState_eq
    cases hr : u.running with
    | false =>
      rw [afterHandler_halted _ _ (by simp [hu]) hr]
      exact ⟨i, u, hp, hop, hcomp, hr, hcomp.pc_eq⟩
    | true =>
      rw [afterHandler_advance _ _ (by simp [hu]) hr, hu] at ht
      cases ht

/-- A cycle that ends in `running` completed an instruction with the Running flag true after it, and moved `pc` past its
operands (R119). -/
theorem step_running_cases {s t : State} (h : step s = .next t) (ht : t.runState = .running) :
    ∃ i u, s.pc.toNat < memSize ∧ s.mem.get s.pc.toNat = i.opcode ∧ Completes i (startCycle s) u ∧
      u.running = true ∧ t.pc = s.pc + 1#9 + BitVec.ofNat 9 (decodeFields i.opcode).operandCount.toNat := by
  obtain ⟨-, ⟨k, rfl⟩ | ⟨i, u, hp, hop, hcomp, rfl⟩⟩ := step_faults_or_completes h
  · cases ht
  · have hu : u.runState = .running := hcomp.runState_eq
    cases hr : u.running with
    | false =>
      rw [afterHandler_halted _ _ (by simp [hu]) hr] at ht
      cases ht
    | true =>
      rw [afterHandler_advance _ _ (by simp [hu]) hr]
      exact ⟨i, u, hp, hop, hcomp, hr, congrArg (· + 1#9 + _) hcomp.pc_eq⟩

/-- An instruction after which the Running flag is true is not HLT (R28, R140). -/
theorem Completes.ne_hlt {i : Instr} {s t : State} (h : Completes i s t) (hr : t.running = true) : i ≠ .hlt := by
  rintro rfl
  cases h
  cases hr

/-- An instruction that clears the Running flag is HLT (R28, R140). -/
theorem Completes.eq_hlt {i : Instr} {s t : State} (h : Completes i s t) (hs : s.running = true)
    (ht : t.running = false) : i = .hlt := by
  by_contra hi
  rw [h.running_eq hi, hs] at ht
  cases ht

/-! ### How far `pc` moves -/

/-- HLT alone has no operand byte (R86, R87). -/
theorem operandCount_of_ne_hlt {i : Instr} (hi : i ≠ .hlt) :
    (decodeFields i.opcode).operandCount.toNat = 1 ∨ (decodeFields i.opcode).operandCount.toNat = 2 := by
  rw [← operands_length]
  cases i with
  | hlt => exact absurd rfl hi
  | prn | push | pop => exact .inl rfl
  | ldi | mul => exact .inr rfl

/-- The 9-bit sum that moves `pc` past an instruction whose opcode exists is exact (R27, R119; D1). -/
theorem pc_advance_toNat (pc : PcWord) (h : Handler) (hp : pc.toNat < memSize) :
    (pc + 1#9 + BitVec.ofNat 9 (decodeFields h.opcode).operandCount.toNat).toNat =
      pc.toNat + 1 + (decodeFields h.opcode).operandCount.toNat := by
  have hn := operandCount_le h
  have hp' : pc.toNat < 256 := hp
  simp only [BitVec.toNat_add, BitVec.toNat_ofNat]
  omega

/-- A cycle that ends in `running` fetched an opcode that exists and moved `pc` past it and its operands, one or two
(R119, R120). -/
theorem step_running_pc {s t : State} (h : step s = .next t) (ht : t.runState = .running) :
    s.pc.toNat < 256 ∧
      t.pc.toNat = s.pc.toNat + 1 + (decodeFields (s.mem.get s.pc.toNat)).operandCount.toNat ∧
      ((decodeFields (s.mem.get s.pc.toNat)).operandCount.toNat = 1 ∨
        (decodeFields (s.mem.get s.pc.toNat)).operandCount.toNat = 2) := by
  obtain ⟨i, u, hp, hop, hcomp, hrun, hpc⟩ := step_running_cases h ht
  rw [hpc, hop]
  exact ⟨hp, pc_advance_toNat s.pc i.handler hp, operandCount_of_ne_hlt (hcomp.ne_hlt hrun)⟩

/-! ### Runs -/

/-- What every step keeps holds of the state a run leaves, whatever the budget. -/
theorem runFuel_induction {P : State → Prop} (hstep : ∀ s t, P s → step s = .next t → P t) (n : Nat) (s : State)
    (hs : P s) : P (runFuel n s) := by
  induction n generalizing s with
  | zero => exact hs
  | succ n ih =>
    cases h : step s with
    | next t => rw [runFuel_next n s t h]; exact ih t (hstep s t hs h)
    | fault | refused => simpa [runFuel, h] using hs

/-- A run in a state of the invariant leaves one. -/
theorem inv_runFuel (n : Nat) {s : State} (hs : s.Inv) : (runFuel n s).Inv :=
  runFuel_induction stepKeepsInvariant n s hs

theorem ended_cases {s : State} (h : s.ended = true) : s.runState = .halted ∨ s.runState = .faulted := by
  simpa [State.ended] using h

/-- Where a cycle leads to no end it leads to `running` (R111). -/
theorem step_running_of_not_ended {s t : State} (h : step s = .next t) (ht : t.ended ≠ true) :
    t.runState = .running := by
  rw [ne_eq, ended_iff, not_not] at ht
  exact ht.resolve_left (firstCycleLeavesReady.2 s t h)

/-- A cycle ends the run or moves `pc` on by at least 2 from an address of memory (R112, R119). -/
theorem step_ends_or_advances {s : State} (hc : s.canCycle) :
    ∃ t, step s = .next t ∧ (t.ended = true ∨ s.pc.toNat < 256 ∧ s.pc.toNat + 2 ≤ t.pc.toNat) := by
  obtain ⟨t, ht⟩ := step_next s hc
  refine ⟨t, ht, or_iff_not_imp_left.2 fun hend => ?_⟩
  obtain ⟨hp, hpc, hcount⟩ := step_running_pc ht (step_running_of_not_ended ht hend)
  exact ⟨hp, by omega⟩

/-- A run ends within `n` cycles when `n - 1` steps of 2 reach 256: each cycle that does not end it advances `pc` by at
least 2, and one that starts at 256 or above ends it (R124). -/
theorem run_ends (n : Nat) (s : State) (h : s.ended = true ∨ 0 < n ∧ 258 ≤ s.pc.toNat + 2 * n) :
    ∃ k t, k ≤ n ∧ Sys2Proof.core.run k s = .next t ∧ t.ended = true ∧ runFuel n s = t := by
  induction n generalizing s with
  | zero => exact ⟨0, s, le_refl 0, rfl, h.resolve_right (by omega), rfl⟩
  | succ n ih =>
    by_cases hs : s.ended = true
    · exact ⟨0, s, Nat.zero_le _, rfl, hs, runFuel_ended _ s hs⟩
    · have hpc := (h.resolve_left hs).2
      obtain ⟨t, ht, hnext⟩ := step_ends_or_advances (not_not.1 (mt (ended_iff s).2 hs))
      obtain ⟨k, u, hk, hrun, hu, hfuel⟩ := ih t (hnext.imp_right fun _ => by omega)
      exact ⟨k + 1, u, Nat.succ_le_succ hk, (core_run_next k s t ht).trans hrun, hu,
        (runFuel_next n s t ht).trans hfuel⟩

/-- `run()` reaches the end of the run, from every state (R124, R125). -/
theorem run_ended (s : State) : (run s).ended = true := by
  obtain ⟨-, t, -, -, ht, hfuel⟩ := run_ends 129 s (.inr (by omega))
  rw [run, hfuel]
  exact ht

theorem exitStatus_halted {s : State} (h : s.runState = .halted) : s.exitStatus = some (.ok ()) := by
  simp [State.exitStatus, h]

theorem exitStatus_faulted {s : State} {k : FaultKind} (h : s.runState = .faulted) (hk : s.faultReason = some k) :
    s.exitStatus = some (.error k) := by simp [State.exitStatus, h, hk]

/-! ### The two fetch policies -/

/-- The decoder makes the dispatch check itself, with the same fault (R114). -/
theorem dispatchCheck_then_decodeFetched (op : Byte) (ops : List Byte) :
    (dispatchCheck op >>= fun _ => decodeFetched (op :: ops)) = decodeFetched (op :: ops) := by
  cases hf : findHandler op with
  | none => simp [dispatchCheck, decodeFetched, decode, hf, decodeErrorKind, bind, Except.bind]
  | some h => simp [dispatchCheck, hf, bind, Except.bind]

/-- Where the opcode does not exist, the fetch of either policy raises `OutOfBounds` (R112). -/
theorem fetch_pc_ge (p : FetchPolicy) (s : State) (h : memSize ≤ s.pc.toNat) : fetch p s = .error .outOfBounds := by
  rw [fetch, memRead_ge _ s h]
  rfl

/-- Where both bytes after the opcode exist, `alwaysTwo` fetches what `byCount` does (R126). -/
theorem fetch_alwaysTwo_lt (s : State) (h : s.pc.toNat + 2 < memSize) :
    fetch .alwaysTwo s = fetch .byCount s := by
  have hread := memReadMany_lt (s.pc.toNat + 1) 2 s (by omega)
  calc fetch .alwaysTwo s
      = (dispatchCheck (s.mem.get s.pc.toNat) >>= fun _ =>
          decodeFetched (s.mem.get s.pc.toNat :: s.mem.bytesFrom (s.pc.toNat + 1) 2)) := by
        simp only [fetch, memRead_lt _ s (show s.pc.toNat < memSize by omega), hread, bind, Except.bind]
    _ = decodeFetched (s.mem.bytesFrom s.pc.toNat 3) := by
        rw [dispatchCheck_then_decodeFetched, bytesFrom_succ _ _ 2 (by omega)]
    _ = fetch .byCount s := (fetch_byCount s).symm

/-- Where the opcode exists and a byte of the two after it does not, `alwaysTwo` raises `OutOfBounds` (R126). -/
theorem fetch_alwaysTwo_top (s : State) (hp : s.pc.toNat < memSize) (h : memSize ≤ s.pc.toNat + 2) :
    fetch .alwaysTwo s = .error .outOfBounds := by
  have hread := memReadMany_ge (s.pc.toNat + 1) 2 s (by omega) (by omega)
  simp only [fetch, memRead_lt _ s hp, hread, bind, Except.bind]

/-- A cycle depends on its fetch policy through what the fetch answers alone. -/
theorem cycleWith_congr_fetch {p q : FetchPolicy} (handlers : Instr → State → Host.Outcome State Fault Refusal)
    {s : State} (h : fetch p (startCycle s) = fetch q (startCycle s)) :
    cycleWith p handlers s = cycleWith q handlers s := by
  simp only [cycleWith, h]

end Sys2Proof.Machine
end

/-! The statements about the cycle (`40_cycle.md`). -/
section
namespace Sys2Proof.Machine

/-- Settles O28: the byte has no handler, and the decoder checks that before the operands. -/
theorem illegalOpcodeFaults : Obligations.IllegalOpcodeFaults := by
  intro s hc hp hop
  have hnone : findHandler (s.mem.get s.pc.toNat) = none := by
    refine (findHandler_eq_none_iff _).2 fun h heq => hop ?_
    rw [heq]
    cases h <;> decide
  refine step_of_decode_error (e := .illegalOpcode (s.mem.get s.pc.toNat)) hc ?_
  rw [State.window, bytesFrom_succ _ _ _ hp]
  exact (illegalOpcodesAreRejected _).2 hnone _

/-- Settles O35. -/
theorem cycleRunsExactlyWhenNotEnded : Obligations.CycleRunsExactlyWhenNotEnded :=
  ⟨fun s => ⟨fun ⟨t, h⟩ => (step_cases s t h).1, step_next s⟩, step_halted, step_faulted⟩

/-- Settles O40: a fault is taken in the state the cycle starts in, before anything is written. -/
theorem faultsArePrecise : Obligations.FaultsArePrecise := by
  intro s t h ht
  obtain ⟨k, rfl⟩ := step_faulted_cases h ht
  exact ⟨rfl, rfl⟩

/-- Settles O43: the invariant has the Running flag true before the cycle, and HLT alone clears it. -/
theorem onlyHltEndsWell : Obligations.OnlyHltEndsWell := by
  intro s t hi h ht
  obtain ⟨i, u, hp, hop, hcomp, hrun, hpc⟩ := step_halted_cases h ht
  obtain rfl : i = .hlt := hcomp.eq_hlt (inv_canCycle hi (step_cases s t h).1).1 hrun
  exact ⟨hp, hop, hpc⟩

/-- Settles O44: the sum is exact, and the instruction that completed has one or two operand bytes. -/
theorem pcAdvancesByTheInstructionLength : Obligations.PcAdvancesByTheInstructionLength := by
  intro s t h ht
  obtain ⟨-, hpc, hcount⟩ := step_running_pc h ht
  exact ⟨hpc, by omega⟩

/-- Settles O27: no byte at `pc` exists. -/
theorem fetchPastTheTopFaults : Obligations.FetchPastTheTopFaults := by
  intro s hc hp
  exact step_of_decode_error (e := .noOpcode) hc (by rw [State.window, bytesFrom_ge _ _ _ hp, decode])

/-- Settles O26: the three ends are those of `afterHandler`. -/
theorem stepRunsDecodedInstruction : Obligations.StepRunsDecodedInstruction := by
  intro s d hc hd
  obtain ⟨t, ht⟩ := exec_next d.instr (startCycle s)
  rw [step_of_decode hc hd ht]
  refine ⟨t, ht, fun hf => ?_, fun hf hr => ?_, fun hf hr => ?_⟩
  · rw [afterHandler_faulted _ _ hf]
  · rw [afterHandler_halted _ _ hf hr]
  · rw [afterHandler_advance_encode _ hf hr]

/-- Settles O39: from any address, 129 cycles are more than it takes to reach 256 by steps of 2. -/
theorem everyRunEndsWithin129Cycles : Obligations.EveryRunEndsWithin129Cycles := by
  intro s
  exact run_ends 129 s (.inr (by omega))

/-- Settles O57: a run ends, it keeps the invariant, and there a fault reason is recorded exactly in `faulted`. -/
theorem runReportsHowItEnded : Obligations.RunReportsHowItEnded := by
  intro s hi
  refine ⟨?_, runFuel_ended runLimit s⟩
  obtain ⟨-, -, -, hreason, -⟩ : (run s).Inv := inv_runFuel runLimit hi
  obtain hhalt | hfault := ended_cases (run_ended s)
  · exact .inl ⟨hhalt, exitStatus_halted hhalt⟩
  · obtain ⟨k, hk⟩ := Option.isSome_iff_exists.1 (hreason.2 hfault)
    exact .inr ⟨k, hfault, hk, exitStatus_faulted hfault hk⟩

/-- Settles O51: below 254 both operand bytes exist, and above 255 the opcode does not. -/
theorem fetchPoliciesAgreeBelow254 : Obligations.FetchPoliciesAgreeBelow254 := by
  intro c s h254 h255
  refine cycleWith_congr_fetch (execUnder c.spPolicy) ?_
  by_cases hp : s.pc.toNat + 2 < 256
  · exact fetch_alwaysTwo_lt (startCycle s) hp
  · have hge : 256 ≤ s.pc.toNat := by omega
    rw [fetch_pc_ge .alwaysTwo (startCycle s) hge, fetch_pc_ge .byCount (startCycle s) hge]

/-- Settles O52: at 254 and 255 one of the two bytes after the opcode does not exist. -/
theorem alwaysTwoFaultsAtTheTop : Obligations.AlwaysTwoFaultsAtTheTop := by
  intro c s hc hpol hp
  have hlt : s.pc.toNat < 256 := by omega
  have htop : 256 ≤ s.pc.toNat + 2 := by omega
  have hfetch : fetch c.fetchPolicy (startCycle s) = .error .outOfBounds := by
    rw [hpol]
    exact fetch_alwaysTwo_top (startCycle s) hlt htop
  exact cycleWith_fetch_error c.fetchPolicy (execUnder c.spPolicy) s .outOfBounds hc hfetch

end Sys2Proof.Machine
end

/-! The statements about HLT (`41_hlt.md`). -/
section
namespace Sys2Proof.Machine

/-- Settles O15: the handler settles with the cleared Running flag, and never with a fault. -/
theorem hltHandlerCompletes : Obligations.HltHandlerCompletes := by
  intro s
  calc exec .hlt s
      = settle s (.ok (clearRunning s)) := rfl
    _ = .next (clearRunning s) := settle_ok s (clearRunning s)
    _ = .next { s with running := false } := rfl

/-- Settles O29: `step_hlt` is the cycle, at every address of memory, and a halted machine has no step. -/
theorem hltCycle : Obligations.HltCycle := by
  refine ⟨rfl, by decide, hltHandlerCompletes, fun s hc hp hop => ⟨step_hlt hc hp hop, ?_⟩⟩
  exact step_halted { s with running := false, runState := .halted } rfl

end Sys2Proof.Machine
end

/-! SUPPORT. A cycle at an opcode with a handler: the bytes of an instruction with two operands, and the faults for an
operand byte past the top of memory and for one that names no register (rules R27, R116, R122). -/
section
namespace Sys2Proof.Machine

/-- The fault of a cycle whose bytes at `pc` end before the operands do (R116; the spec's decision D1, log entry 3). -/
theorem step_missing_operand {s : State} (h : Handler) (hc : s.canCycle) (hp : s.pc.toNat < memSize)
    (hop : s.mem.get s.pc.toNat = h.opcode)
    (htop : memSize ≤ s.pc.toNat + (decodeFields h.opcode).operandCount.toNat) :
    step s = .next { s with runState := .faulted, faultReason := some .outOfBounds } := by
  have hshort : (s.mem.bytesFrom (s.pc.toNat + 1) 2).length < (decodeFields h.opcode).operandCount.toNat :=
    bytesFrom_length_lt _ _ _ _ (by omega) (by omega)
  refine step_of_decode_error (e := .missingOperand) hc ?_
  rw [State.window, bytesFrom_succ _ _ _ hp, hop]
  simp only [decode, findHandler_opcode, if_pos hshort]

/-- The fault of a cycle whose instruction names a register above R7 (R23, R24, R122). -/
theorem step_of_not_wellFormed {s : State} {i : Instr} (hc : s.canCycle)
    (h : s.mem.bytesFrom s.pc.toNat (encode i).length = encode i) (hw : i.wellFormed = false) :
    step s = .next { s with runState := .faulted, faultReason := some .outOfBounds } := by
  rw [step_of_encode hc h (exec_of_not_wellFormed i (startCycle s) hw), afterHandler_faulted _ _ (raise_runState _ _)]
  rfl

/-- The bytes of an instruction with two operands, read off memory. -/
theorem bytesFrom_three (m : Memory) {addr : Nat} (h : addr + 2 < memSize) :
    m.bytesFrom addr 3 = [m.get addr, m.get (addr + 1), m.get (addr + 2)] := by
  rw [bytesFrom_succ _ _ _ (by omega), bytesFrom_succ _ _ _ (by omega), bytesFrom_succ _ _ _ h]
  rfl

end Sys2Proof.Machine
end

/-! The statements about LDI (`42_ldi.md`). -/
section
namespace Sys2Proof.Machine

/-- The bytes at `pc` are those of an LDI when its opcode stands there and both its operand bytes exist (R145). -/
theorem bytesFrom_ldi {m : Memory} {addr : Nat} (hp : addr + 2 < memSize) (hop : m.get addr = 0x82#8) :
    m.bytesFrom addr 3 = encode (.ldi (m.get (addr + 1)) (m.get (addr + 2))) := by
  rw [bytesFrom_three m hp, hop]
  rfl

/-- The step at LDI of a valid register whose three bytes exist (R145). -/
theorem step_ldi {s : State} (hc : s.canCycle) (hrun : s.running = true) (hp : s.pc.toNat + 2 < memSize)
    (hop : s.mem.get s.pc.toNat = 0x82#8) (ha : (s.mem.get (s.pc.toNat + 1)).toNat < 8) :
    step s = .next { s with
      regs := s.regs.set ⟨_, ha⟩ (s.mem.get (s.pc.toNat + 2))
      pc := s.pc + 3#9
      runState := .running } :=
  step_advances (i := .ldi _ _) hc (bytesFrom_ldi hp hop) (exec_ldi_valid _ _ (startCycle s) ha) nofun hrun

/-- Settles O16. -/
theorem ldiHandlerCompletes : Obligations.LdiHandlerCompletes := fun s a b h => exec_ldi_valid a b s h

/-- Settles O30: up to `pc` 253 all three bytes exist, and the register operand decides between result and fault; at 254
and 255 the fetch runs out of memory. -/
theorem ldiCycle : Obligations.LdiCycle := by
  refine ⟨fun a b => rfl, by decide, fun s hc hrun hop => ⟨fun hp => ?_, fun hp => ?_⟩⟩
  · have hfit : s.pc.toNat + 2 < 256 := by omega
    refine ⟨step_ldi hc hrun hfit hop, fun ha => ?_⟩
    exact step_of_not_wellFormed (i := .ldi _ _) hc (bytesFrom_ldi hfit hop)
      ((validIndex_eq_false _).2 (Nat.not_lt.2 ha))
  · have hexists : s.pc.toNat < 256 := by omega
    have htop : 256 ≤ s.pc.toNat + 2 := by omega
    exact step_missing_operand .ldi hc hexists hop htop

end Sys2Proof.Machine
end

/-! SUPPORT. The cycle of PRN, how many elements a run appends to the output, and the digits of a rendered element (rules
R119, R124, R150, R151). -/
section
namespace Sys2Proof.Machine

/-! ### The cycle of PRN -/

/-- The bytes of an instruction with one operand, read off memory. -/
theorem bytesFrom_two (m : Memory) {addr : Nat} (h : addr + 1 < memSize) :
    m.bytesFrom addr 2 = [m.get addr, m.get (addr + 1)] := by
  rw [bytesFrom_succ _ _ _ (by omega), bytesFrom_succ _ _ _ h]
  rfl

/-- The bytes at `pc` are those of a PRN when its opcode stands there and its operand byte exists (R150). -/
theorem bytesFrom_prn {m : Memory} {addr : Nat} (hp : addr + 1 < memSize) (hop : m.get addr = 0x47#8) :
    m.bytesFrom addr 2 = encode (.prn (m.get (addr + 1))) := by
  rw [bytesFrom_two m hp, hop]
  rfl

/-- The step at PRN of a valid register whose two bytes exist (R150). -/
theorem step_prn {s : State} (hc : s.canCycle) (hrun : s.running = true) (hp : s.pc.toNat + 1 < memSize)
    (hop : s.mem.get s.pc.toNat = 0x47#8) (ha : (s.mem.get (s.pc.toNat + 1)).toNat < 8) :
    step s = .next { s with out := s.out ++ [s.regs.get ⟨_, ha⟩], pc := s.pc + 2#9, runState := .running } :=
  step_advances (i := .prn _) hc (bytesFrom_prn hp hop) (exec_prn_valid _ (startCycle s) ha) nofun hrun

/-! ### The output of a run -/

/-- A cycle appends at most one element, and none where no opcode exists (R112, R150). -/
theorem step_out_append {s t : State} (h : step s = .next t) :
    ∃ vs, t.out = s.out ++ vs ∧ vs.length ≤ 1 ∧ 2 * vs.length ≤ 257 - s.pc.toNat := by
  obtain ⟨-, ⟨k, rfl⟩ | ⟨i, u, hp, -, hcomp, rfl⟩⟩ := step_faults_or_completes h
  · exact ⟨[], (List.append_nil _).symm, by simp⟩
  · rw [afterHandler_out]
    obtain hout | ⟨a, v, -, hout⟩ := hcomp.out_cases
    · exact ⟨[], hout.trans (List.append_nil _).symm, by simp⟩
    · have hp' : s.pc.toNat < 256 := hp
      exact ⟨[v], hout, le_refl 1, by simp only [List.length_singleton]; omega⟩

/-- A run appends at most one element for every two bytes from `pc` to the top of memory: a cycle that appends one ends the
run or moves `pc` on by at least 2 (R119, R124, R150). -/
theorem runFuel_out_append (n : Nat) (s : State) :
    ∃ vs, (runFuel n s).out = s.out ++ vs ∧ 2 * vs.length ≤ 257 - s.pc.toNat := by
  induction n generalizing s with
  | zero => exact ⟨[], (List.append_nil _).symm, Nat.zero_le _⟩
  | succ n ih =>
    by_cases hs : s.ended = true
    · rw [runFuel_ended _ s hs]
      exact ⟨[], (List.append_nil _).symm, Nat.zero_le _⟩
    · obtain ⟨t, ht, hnext⟩ := step_ends_or_advances (not_not.1 (mt (ended_iff s).2 hs))
      obtain ⟨vs, hvs, hone, hbound⟩ := step_out_append ht
      rw [runFuel_next n s t ht]
      obtain hend | ⟨hp, hpc⟩ := hnext
      · rw [runFuel_ended n t hend]
        exact ⟨vs, hvs, hbound⟩
      · obtain ⟨ws, hws, hrest⟩ := ih t
        refine ⟨vs ++ ws, by rw [hws, hvs, List.append_assoc], ?_⟩
        rw [List.length_append]
        omega

/-! ### The rendering -/

/-- The characters of the digits 0 to 9 are 0x30 to 0x39. -/
theorem toNat_digitChar {d : Nat} (h : d < 10) : (digitChar d).toNat = 48 + d := by
  have hvalid : (48 + d).isValidChar := .inl (by omega)
  rw [digitChar, Char.toNat_ofNat, if_pos hvalid]

/-- The rendering of a byte is the characters of a list of digits: at least one, with the byte as their value in base ten,
and with a leading 0 for the single digit 0 alone (R151). -/
theorem decimal_eq_map_digitChar (v : Byte) :
    ∃ d ds, decimal v = (d :: ds).map digitChar ∧ (∀ e ∈ d :: ds, e < 10) ∧
      (d :: ds).foldl (fun n e => 10 * n + e) 0 = v.toNat ∧ (d = 0 → ds = []) := by
  have hv : v.toNat < 256 := v.isLt
  by_cases h10 : v.toNat < 10
  · exact ⟨v.toNat, [], by simp [decimal, h10], by simpa using h10, by simp, fun _ => rfl⟩
  · by_cases h100 : v.toNat < 100
    · have hlt : ∀ e ∈ [v.toNat / 10, v.toNat % 10], e < 10 :=
        List.forall_mem_cons.2 ⟨by omega, List.forall_mem_singleton.2 (by omega)⟩
      refine ⟨_, _, by simp [decimal, h10, h100], hlt, ?_, fun h => by omega⟩
      simp only [List.foldl_cons, List.foldl_nil]
      omega
    · have hlt : ∀ e ∈ [v.toNat / 100, v.toNat / 10 % 10, v.toNat % 10], e < 10 :=
        List.forall_mem_cons.2 ⟨by omega, List.forall_mem_cons.2 ⟨by omega, List.forall_mem_singleton.2 (by omega)⟩⟩
      refine ⟨_, _, by simp [decimal, h10, h100], hlt, ?_, fun h => by omega⟩
      simp only [List.foldl_cons, List.foldl_nil]
      omega

/-- Reading the characters of digits in base ten is reading the digits. -/
theorem foldl_map_digitChar {ds : List Nat} (h : ∀ d ∈ ds, d < 10) (n : Nat) :
    (ds.map digitChar).foldl (fun n c => 10 * n + (c.toNat - 48)) n = ds.foldl (fun n d => 10 * n + d) n := by
  induction ds generalizing n with
  | nil => rfl
  | cons d ds ih =>
    obtain ⟨hd, hds⟩ := List.forall_mem_cons.1 h
    simp only [List.map_cons, List.foldl_cons, toNat_digitChar hd, Nat.add_sub_cancel_left, ih hds]

end Sys2Proof.Machine
end

/-! The statements about PRN and the output (`43_prn.md`). -/
section
namespace Sys2Proof.Machine

/-- Settles O31: up to `pc` 254 both bytes exist, and the register operand decides between result and fault; at 255 the
fetch runs out of memory. -/
theorem prnCycle : Obligations.PrnCycle := by
  refine ⟨fun a => rfl, by decide, fun s hc hrun hop => ⟨fun hp => ?_, fun hp => ?_⟩⟩
  · have hfit : s.pc.toNat + 1 < 256 := by omega
    refine ⟨step_prn hc hrun hfit hop, fun ha => ?_⟩
    exact step_of_not_wellFormed (i := .prn _) hc (bytesFrom_prn hfit hop)
      ((validIndex_eq_false _).2 (Nat.not_lt.2 ha))
  · have hexists : s.pc.toNat < 256 := by omega
    have htop : 256 ≤ s.pc.toNat + 1 := by omega
    exact step_missing_operand .prn hc hexists hop htop

/-- Settles O49: from the lowest `pc` the bound is half of 257. -/
theorem runEmitsAtMost128Elements : Obligations.RunEmitsAtMost128Elements := by
  intro s
  obtain ⟨vs, hvs, hbound⟩ := runFuel_out_append runLimit s
  exact ⟨vs, hvs, by omega⟩

/-- Settles O17. -/
theorem prnHandlerCompletes : Obligations.PrnHandlerCompletes := fun s a h => exec_prn_valid a s h

/-- Settles O58: all of it is read off the digits. -/
theorem renderingIsDecimal : Obligations.RenderingIsDecimal := by
  intro v
  obtain ⟨d, ds, hmap, hlt, hvalue, hlead⟩ := decimal_eq_map_digitChar v
  refine ⟨rfl, ?_, fun c hc => ?_, ?_, fun h => ?_, ?_⟩
  · rw [hmap, foldl_map_digitChar hlt, hvalue]
  · rw [hmap] at hc
    obtain ⟨e, he, rfl⟩ := List.mem_map.1 hc
    have he10 := hlt e he
    rw [toNat_digitChar he10]
    omega
  · simp [hmap]
  · have hchar : digitChar d = Char.ofNat 48 := by simpa [hmap] using h
    have hd : 48 + d = 48 := by
      rw [← toNat_digitChar (hlt d List.mem_cons_self), hchar]
      rfl
    obtain rfl : d = 0 := by omega
    obtain rfl := hlead rfl
    exact ⟨BitVec.eq_of_toNat_eq hvalue.symm, hmap⟩
  · rintro rfl
    rfl

end Sys2Proof.Machine
end

/-! The statements about the ALU and MUL (`44_alu_mul.md`). -/
section
namespace Sys2Proof.Machine

/-! ### The ALU -/

/-- The value of an ADD is the sum of the values modulo 256 (R156). -/
theorem toNat_alu_add (a b : Byte) : (alu .add a b).toNat = (a.toNat + b.toNat) % 256 := toNat_trunc8 _

/-- The value of a MUL is the product of the values modulo 256 (R157). -/
theorem toNat_alu_mul (a b : Byte) : (alu .mul a b).toNat = (a.toNat * b.toNat) % 256 := toNat_trunc8 _

/-- The ALU's MUL is the product of 8-bit words (R157). -/
theorem alu_mul (a b : Byte) : alu .mul a b = a * b :=
  BitVec.eq_of_toNat_eq ((toNat_alu_mul a b).trans (BitVec.toNat_mul a b).symm)

/-- Settles O13. -/
theorem aluAddIsSumModulo256 : Obligations.AluAddIsSumModulo256 := ⟨toNat_alu_add, by decide⟩

/-- Settles O14. -/
theorem aluMulIsProductModulo256 : Obligations.AluMulIsProductModulo256 := ⟨toNat_alu_mul, by decide⟩

/-! ### MUL -/

/-- MUL's register operands are both checked (R160). -/
theorem wellFormed_mul_eq_false (a b : Byte) : (Instr.mul a b).wellFormed = false ↔ 7 < a.toNat ∨ 7 < b.toNat := by
  rw [Instr.wellFormed, Bool.and_eq_false_iff, validIndex_eq_false, validIndex_eq_false]
  omega

/-- The bytes at `pc` are those of a MUL when its opcode stands there and both its operand bytes exist (R160). -/
theorem bytesFrom_mul {m : Memory} {addr : Nat} (hp : addr + 2 < memSize) (hop : m.get addr = 0xA2#8) :
    m.bytesFrom addr 3 = encode (.mul (m.get (addr + 1)) (m.get (addr + 2))) := by
  rw [bytesFrom_three m hp, hop]
  rfl

/-- The step at MUL of valid registers whose three bytes exist (R160). -/
theorem step_mul {s : State} (hc : s.canCycle) (hrun : s.running = true) (hp : s.pc.toNat + 2 < memSize)
    (hop : s.mem.get s.pc.toNat = 0xA2#8) (ha : (s.mem.get (s.pc.toNat + 1)).toNat < 8)
    (hb : (s.mem.get (s.pc.toNat + 2)).toNat < 8) :
    step s = .next { s with
      regs := s.regs.set ⟨_, ha⟩ (alu .mul (s.regs.get ⟨_, ha⟩) (s.regs.get ⟨_, hb⟩))
      pc := s.pc + 3#9
      runState := .running } :=
  step_advances (i := .mul _ _) hc (bytesFrom_mul hp hop) (exec_mul_valid _ _ (startCycle s) ha hb) nofun hrun

/-- Settles O18: the handler writes what the ALU answers, and that is the product. -/
theorem mulHandlerCompletes : Obligations.MulHandlerCompletes := by
  intro s a b ha hb
  rw [exec_mul_valid a b s ha hb, alu_mul]

/-- Settles O32: up to `pc` 253 all three bytes exist, and the two register operands decide between result and fault; at
254 and 255 the fetch runs out of memory. -/
theorem mulCycle : Obligations.MulCycle := by
  refine ⟨fun a b => rfl, by decide, fun s hc hrun hop => ⟨fun hp => ?_, fun hp => ?_⟩⟩
  · have hfit : s.pc.toNat + 2 < 256 := by omega
    refine ⟨step_mul hc hrun hfit hop, fun hbad => ?_⟩
    exact step_of_not_wellFormed (i := .mul _ _) hc (bytesFrom_mul hfit hop) ((wellFormed_mul_eq_false _ _).2 hbad)
  · have hexists : s.pc.toNat < 256 := by omega
    have htop : 256 ≤ s.pc.toNat + 2 := by omega
    exact step_missing_operand .mul hc hexists hop htop

end Sys2Proof.Machine
end

/-! SUPPORT. The register file as a function of the index, registers named by the byte of their index, and runs of handlers
one after the other: what the statements about the stack rest on (rules R21, R37, R84). -/
section
namespace Sys2Proof.Machine

/-! ### The register file -/

/-- Register files that agree at every index are the same data. -/
theorem regFile_ext {r q : RegFile} (h : ∀ i, r.get i = q.get i) : r = q := by
  cases r
  cases q
  rw [RegFile.mk.injEq]
  exact ⟨h 0, h 1, h 2, h 3, h 4, h 5, h 6, h 7⟩

/-- Of two writes to one register the second counts. -/
@[simp] theorem set_set_same (r : RegFile) (i : Fin 8) (v w : Byte) : (r.set i v).set i w = r.set i w := by
  refine regFile_ext fun j => ?_
  simp only [get_set]
  split <;> rfl

/-- Writes to two registers commute. -/
theorem set_comm (r : RegFile) {i j : Fin 8} (h : i ≠ j) (v w : Byte) :
    (r.set i v).set j w = (r.set j w).set i v := by
  refine regFile_ext fun k => ?_
  by_cases hk : k = i
  · subst hk
    simp only [get_set, if_neg h]
  · simp only [get_set, if_neg hk]

/-- Writing back what a register holds changes nothing. -/
@[simp] theorem set_get_self (r : RegFile) (i : Fin 8) : r.set i (r.get i) = r := by
  refine regFile_ext fun j => ?_
  rw [get_set]
  split
  · next h => rw [h]
  · rfl

/-! ### Operand bytes and the registers they name -/

/-- An operand byte names register 7 exactly when it is the byte 7 (R84). -/
theorem index_eq_seven_iff {a : Byte} (ha : a.toNat < 8) : (⟨a.toNat, ha⟩ : Fin 8) = 7 ↔ a = 7#8 := by
  rw [Fin.ext_iff, ← BitVec.toNat_inj]
  rfl

theorem regByte_toNat (i : Fin 8) : (regByte i).toNat = i.val := by
  rw [regByte, BitVec.toNat_ofNat]
  omega

theorem regByte_lt (i : Fin 8) : (regByte i).toNat < 8 := by
  rw [regByte_toNat]
  exact i.isLt

/-- The byte of a register names that register. -/
@[simp] theorem index_regByte (i : Fin 8) : (⟨(regByte i).toNat, regByte_lt i⟩ : Fin 8) = i := Fin.ext (regByte_toNat i)

/-! ### Handlers one after the other -/

theorem execAll_cons {i : Instr} {s t : State} (h : exec i s = .next t) (is : List Instr) :
    execAll (i :: is) s = execAll is t := by
  simp only [execAll, h]

theorem execAll_append {is : List Instr} {s t : State} (h : execAll is s = .next t) (js : List Instr) :
    execAll (is ++ js) s = execAll js t := by
  induction is generalizing s with
  | nil =>
    obtain rfl : s = t := Host.Outcome.next.inj h
    rfl
  | cons i is ih =>
    obtain ⟨u, hu⟩ := exec_next i s
    rw [execAll_cons hu] at h
    rw [List.cons_append, execAll_cons hu, ih h]

end Sys2Proof.Machine
end

/-! SUPPORT. PUSH and POP: the handlers, the policies, the cycles, and a balanced program of pushes and pops (rules R165 to
R172). -/
section
namespace Sys2Proof.Machine

/-! ### The handlers -/

/-- What PUSH stores is read after the decrement, so register 7 is stored decremented (R167; D17). -/
theorem get_set_sp (r : RegFile) {a : Byte} (ha : a.toNat < 8) (v : Byte) :
    (r.set 7 v).get ⟨a.toNat, ha⟩ = if a = 7#8 then v else r.get ⟨a.toNat, ha⟩ := by
  simp only [get_set, index_eq_seven_iff]

/-- What POP increments is read after the byte was written, so register 7 ends as the byte plus one (R169; D17). -/
theorem set_then_increment_sp (r : RegFile) {a : Byte} (ha : a.toNat < 8) (v : Byte) :
    (r.set ⟨a.toNat, ha⟩ v).set 7 ((r.set ⟨a.toNat, ha⟩ v).get 7 + 1#8) =
      if a = 7#8 then r.set 7 (v + 1#8) else (r.set ⟨a.toNat, ha⟩ v).set 7 (r.get 7 + 1#8) := by
  split
  · next h => rw [(index_eq_seven_iff ha).2 h, get_set_same, set_set_same]
  · next h => rw [get_set_ne _ _ _ _ fun h7 => h ((index_eq_seven_iff ha).1 h7.symm)]

/-- The state after a PUSH of a register other than R7 (R166). -/
def State.pushed (r : Fin 8) (s : State) : State :=
  { s with
    regs := s.regs.set 7 (s.regs.get 7 - 1#8)
    mem := s.mem.set (s.regs.get 7 - 1#8).toNat (s.regs.get r) }

@[simp] theorem pushed_regs (r : Fin 8) (s : State) :
    (s.pushed r).regs = s.regs.set 7 (s.regs.get 7 - 1#8) := rfl

@[simp] theorem pushed_mem (r : Fin 8) (s : State) :
    (s.pushed r).mem = s.mem.set (s.regs.get 7 - 1#8).toNat (s.regs.get r) := rfl

@[simp] theorem pushed_out (r : Fin 8) (s : State) : (s.pushed r).out = s.out := rfl

theorem pushed_wf (r : Fin 8) {s : State} (hwf : s.mem.wf = true) : (s.pushed r).mem.wf = true :=
  wf_set _ _ _ hwf (s.regs.get 7 - 1#8).isLt

theorem exec_push_regByte {r : Fin 8} (hr : r ≠ 7) (s : State) : exec (.push (regByte r)) s = .next (s.pushed r) := by
  rw [State.pushed, exec_push_valid _ s (regByte_lt r), index_regByte, get_set_ne _ _ _ _ hr]

theorem exec_pop_regByte {c : Fin 8} (hc : c ≠ 7) (s : State) :
    exec (.pop (regByte c)) s = .next { s with
      regs := (s.regs.set c (s.mem.get (s.regs.get 7).toNat)).set 7 (s.regs.get 7 + 1#8) } := by
  rw [exec_pop_valid _ s (regByte_lt c), index_regByte, get_set_ne _ _ _ _ hc.symm]

theorem exec_prn_regByte (c : Fin 8) (s : State) : exec (.prn (regByte c)) s = .next (emit (s.regs.get c) s) := by
  rw [exec_prn_valid _ s (regByte_lt c), index_regByte]

/-! ### The stack pointer policies -/

/-- Past its stack check PUSH depends on no policy (R170). -/
theorem pushUnder_eq_wrap {p : SpPolicy} {s : State} (hc : stackCheck p 0x00#8 s = .ok ()) (a : Byte) :
    pushUnder p a s = pushUnder .wrap a s := by
  simp only [pushUnder, hc, stackCheck_wrap]

/-- Past its stack check POP depends on no policy (R170). -/
theorem popUnder_eq_wrap {p : SpPolicy} {s : State} (hc : stackCheck p 0xFF#8 s = .ok ()) (a : Byte) :
    popUnder p a s = popUnder .wrap a s := by
  simp only [popUnder, hc, stackCheck_wrap]

/-- PUSH whose stack check raises takes that fault, whatever its operand (R170, R184). -/
theorem pushUnder_check_error {p : SpPolicy} {s : State} (hc : stackCheck p 0x00#8 s = .error .outOfBounds) (a : Byte) :
    pushUnder p a s = .error .outOfBounds := by
  by_cases ha : a.toNat < 8
  · simp [pushUnder, regIndex_valid a ha, hc, bind, Except.bind]
  · exact pushUnder_invalid p a s ha

/-- POP whose stack check raises takes that fault, whatever its operand (R170, R184). -/
theorem popUnder_check_error {p : SpPolicy} {s : State} (hc : stackCheck p 0xFF#8 s = .error .outOfBounds) (a : Byte) :
    popUnder p a s = .error .outOfBounds := by
  by_cases ha : a.toNat < 8
  · simp [popUnder, regIndex_valid a ha, hc, bind, Except.bind]
  · exact popUnder_invalid p a s ha

theorem stackCheck_fault_ok {last : Byte} {s : State} (h : s.regs.get 7 ≠ last) : stackCheck .fault last s = .ok () := by
  rw [stackCheck_fault, if_neg h]

theorem stackCheck_fault_error {last : Byte} {s : State} (h : s.regs.get 7 = last) :
    stackCheck .fault last s = .error .outOfBounds := by
  rw [stackCheck_fault, if_pos h]

/-! ### The cycles -/

/-- The bytes at `pc` are those of a PUSH when its opcode stands there and its operand byte exists (R166). -/
theorem bytesFrom_push {m : Memory} {addr : Nat} (hp : addr + 1 < memSize) (hop : m.get addr = 0x45#8) :
    m.bytesFrom addr 2 = encode (.push (m.get (addr + 1))) := by
  rw [bytesFrom_two m hp, hop]
  rfl

/-- The bytes at `pc` are those of a POP when its opcode stands there and its operand byte exists (R168). -/
theorem bytesFrom_pop {m : Memory} {addr : Nat} (hp : addr + 1 < memSize) (hop : m.get addr = 0x46#8) :
    m.bytesFrom addr 2 = encode (.pop (m.get (addr + 1))) := by
  rw [bytesFrom_two m hp, hop]
  rfl

/-- At the last address the operand byte of a one-operand instruction does not exist (R116; D1). -/
theorem step_one_operand_top {s : State} (h : Handler) (hone : (decodeFields h.opcode).operandCount = 1#2)
    (hc : s.canCycle) (hop : s.mem.get s.pc.toNat = h.opcode) (htop : s.pc.toNat = 255) :
    step s = .next { s with runState := .faulted, faultReason := some .outOfBounds } := by
  have hexists : s.pc.toNat < 256 := by omega
  refine step_missing_operand h hc hexists hop ?_
  rw [htop, hone]
  rfl

/-- The step at POP into a valid register whose two bytes exist (R168, R169). -/
theorem step_pop {s : State} {a : Byte} (hc : s.canCycle) (hrun : s.running = true) (hp : s.pc.toNat + 1 < memSize)
    (hop : s.mem.get s.pc.toNat = 0x46#8) (hoperand : s.mem.get (s.pc.toNat + 1) = a) (ha : a.toNat < 8) :
    step s = .next { s with
      regs :=
        if a = 7#8 then s.regs.set 7 (s.mem.get (s.regs.get 7).toNat + 1#8)
        else (s.regs.set ⟨a.toNat, ha⟩ (s.mem.get (s.regs.get 7).toNat)).set 7 (s.regs.get 7 + 1#8)
      pc := s.pc + 2#9
      runState := .running } := by
  subst hoperand
  rw [← set_then_increment_sp]
  exact step_advances (i := .pop _) hc (bytesFrom_pop hp hop) (exec_pop_valid _ (startCycle s) ha) nofun hrun

/-- The increment of POP undoes the decrement of PUSH, modulo 256: the register popped alone has changed (R171). -/
theorem set_sp_round_trip (r : RegFile) {c : Fin 8} (hc : c ≠ 7) (v : Byte) :
    ((r.set 7 (r.get 7 - 1#8)).set c v).set 7 (r.get 7 - 1#8 + 1#8) = r.set c v := by
  have hsp : (r.set c v).get 7 = r.get 7 := get_set_ne _ _ _ _ hc.symm
  rw [set_comm r hc.symm, set_set_same, BitVec.sub_add_cancel, ← hsp, set_get_self]

/-! ### A balanced program -/

/-- Push the registers of a list, then pop as often into one register, printing each byte popped (R172). -/
def pushAllPopAll (rs : List (Fin 8)) (c : Fin 8) : List Instr :=
  rs.map (fun r => .push (regByte r)) ++ rs.flatMap (fun _ => [.pop (regByte c), .prn (regByte c)])

/-- Copies of one block may be counted from either end. -/
theorem append_flatMap_const (ls : List (Fin 8)) (block : List Instr) :
    block ++ ls.flatMap (fun _ => block) = ls.flatMap (fun _ => block) ++ block := by
  induction ls with
  | nil => exact List.append_nil block
  | cons l ls ih => rw [List.flatMap_cons, List.append_assoc, ← ih]

/-- The first push belongs to the last pop: between them stands the program of the remaining registers. -/
theorem pushAllPopAll_cons (r : Fin 8) (rs : List (Fin 8)) (c : Fin 8) :
    pushAllPopAll (r :: rs) c =
      .push (regByte r) :: (pushAllPopAll rs c ++ [.pop (regByte c), .prn (regByte c)]) := by
  rw [pushAllPopAll, List.map_cons, List.flatMap_cons, append_flatMap_const, List.cons_append, ← List.append_assoc,
    pushAllPopAll]

/-- What a balanced program over `rs` leaves: the stack pointer is back, the output has grown by the registers' values in
reverse order, and of the cells only the `rs.length` ones below the stack pointer, modulo 256, may have changed. -/
structure Balanced (rs : List (Fin 8)) (s t : State) : Prop where
  sp_eq : t.regs.get 7 = s.regs.get 7
  out_eq : t.out = s.out ++ (rs.map s.regs.get).reverse
  mem_get_eq : ∀ d, d + rs.length < memSize →
    t.mem.get (s.regs.get 7 + BitVec.ofNat 8 d).toNat = s.mem.get (s.regs.get 7 + BitVec.ofNat 8 d).toNat

/-- The distance of a cell above the stack pointer, measured from the decremented one. -/
theorem sub_one_add_ofNat_succ (sp : Byte) (d : Nat) : sp - 1#8 + BitVec.ofNat 8 (d + 1) = sp + BitVec.ofNat 8 d := by
  rw [Nat.add_comm, BitVec.ofNat_add, ← BitVec.add_assoc, BitVec.sub_add_cancel]

/-- The cell a PUSH stores to is none of those 0 to 254 above the stack pointer. -/
theorem add_ofNat_toNat_ne_sub_one (sp : Byte) {d : Nat} (h : d + 1 < memSize) :
    (sp + BitVec.ofNat 8 d).toNat ≠ (sp - 1#8).toNat := by
  have h' : d + 1 < 256 := h
  simp only [BitVec.toNat_add, BitVec.toNat_sub, BitVec.toNat_ofNat]
  omega

/-- POP and PRN print the byte the stack pointer addresses, increment the pointer and write no memory (R150, R168). -/
theorem execAll_pop_prn {c : Fin 8} (hc : c ≠ 7) (s : State) :
    ∃ t, execAll [.pop (regByte c), .prn (regByte c)] s = .next t ∧ t.regs.get 7 = s.regs.get 7 + 1#8 ∧
      t.out = s.out ++ [s.mem.get (s.regs.get 7).toNat] ∧ t.mem = s.mem := by
  refine ⟨_, (execAll_cons (exec_pop_regByte hc s) _).trans (execAll_cons (exec_prn_regByte c _) []), ?_, ?_, rfl⟩
  · rw [emit_regs, get_set_same]
  · rw [emit_out, get_set_ne _ _ _ _ hc, get_set_same]

/-- A PUSH, a balanced program and a POP with its PRN are balanced: the program in between leaves the cell the PUSH stored
to, which lies at the stack pointer it starts from. -/
theorem Balanced.cons {r : Fin 8} {rs : List (Fin 8)} {s u t : State} (hlen : rs.length < memSize) (hrs : 7 ∉ rs)
    (hwf : s.mem.wf = true) (hu : Balanced rs (s.pushed r) u) (hsp : t.regs.get 7 = u.regs.get 7 + 1#8)
    (hout : t.out = u.out ++ [u.mem.get (u.regs.get 7).toNat]) (hmem : t.mem = u.mem) : Balanced (r :: rs) s t := by
  obtain ⟨huSp, huOut, huMem⟩ := hu
  simp only [pushed_regs, pushed_mem, pushed_out, get_set_same] at huSp huOut huMem
  have htop : u.mem.get (u.regs.get 7).toNat = s.regs.get r := by
    have h0 := huMem 0 (by omega)
    rw [BitVec.add_zero, mem_get_set_same _ _ 0 _ hwf] at h0
    rw [huSp, h0]
  have hvals : rs.map (s.regs.set 7 (s.regs.get 7 - 1#8)).get = rs.map s.regs.get :=
    List.map_congr_left fun q hq => get_set_ne _ _ _ _ (ne_of_mem_of_not_mem hq hrs)
  refine ⟨?_, ?_, fun d hd => ?_⟩
  · rw [hsp, huSp, BitVec.sub_add_cancel]
  · rw [hout, huOut, htop, hvals, List.map_cons, List.reverse_cons, List.append_assoc]
  · rw [List.length_cons] at hd
    have hcell := huMem (d + 1) (by omega)
    rw [sub_one_add_ofNat_succ] at hcell
    rw [hmem, hcell, mem_get_set_ne _ _ _ _ (add_ofNat_toNat_ne_sub_one _ (by omega))]

/-- The program of at most 256 registers is balanced, by induction on the list: the stack holds no more than memory does. -/
theorem execAll_pushAllPopAll {c : Fin 8} (hc : c ≠ 7) (rs : List (Fin 8)) (s : State) (hlen : rs.length ≤ memSize)
    (hrs : 7 ∉ rs) (hwf : s.mem.wf = true) : ∃ t, execAll (pushAllPopAll rs c) s = .next t ∧ Balanced rs s t := by
  induction rs generalizing s with
  | nil => exact ⟨s, rfl, rfl, (List.append_nil _).symm, fun _ _ => rfl⟩
  | cons r rs ih =>
    rw [List.length_cons] at hlen
    have hr : r ≠ 7 := (List.ne_of_not_mem_cons hrs).symm
    have hrest : 7 ∉ rs := List.not_mem_of_not_mem_cons hrs
    obtain ⟨u, hu, hbal⟩ := ih (s.pushed r) (by omega) hrest (pushed_wf r hwf)
    obtain ⟨t, ht, hsp, hout, hmem⟩ := execAll_pop_prn hc u
    refine ⟨t, ?_, hbal.cons (by omega) hrest hwf hsp hout hmem⟩
    rw [pushAllPopAll_cons, execAll_cons (exec_push_regByte hr s), execAll_append hu, ht]

end Sys2Proof.Machine
end

/-! The statements about PUSH and POP (`45_stack_push_pop.md`). -/
section
namespace Sys2Proof.Machine

/-- Settles O19. -/
theorem pushHandlerCompletes : Obligations.PushHandlerCompletes := by
  intro s a ha
  rw [exec_push_valid a s ha, get_set_sp]

/-- Settles O20. -/
theorem popHandlerCompletes : Obligations.PopHandlerCompletes := by
  intro s a ha
  rw [exec_pop_valid a s ha, set_then_increment_sp]

/-- Settles O33: up to `pc` 254 both bytes exist, and the register operand decides between result and fault; at 255 the
fetch runs out of memory. -/
theorem pushCycle : Obligations.PushCycle := by
  refine fun s hc hrun hop => ⟨fun hp => ?_, step_one_operand_top .push rfl hc hop⟩
  have hfit : s.pc.toNat + 1 < 256 := by omega
  refine ⟨fun ha => ?_, fun ha => ?_⟩
  · rw [← get_set_sp]
    exact step_push hc hrun hfit hop ha
  · exact step_of_not_wellFormed (i := .push _) hc (bytesFrom_push hfit hop)
      ((validIndex_eq_false _).2 (Nat.not_lt.2 ha))

/-- Settles O34: as for PUSH, with the result of POP. -/
theorem popCycle : Obligations.PopCycle := by
  refine fun s hc hrun hop => ⟨fun hp => ?_, step_one_operand_top .pop rfl hc hop⟩
  have hfit : s.pc.toNat + 1 < 256 := by omega
  refine ⟨step_pop hc hrun hfit hop rfl, fun ha => ?_⟩
  exact step_of_not_wellFormed (i := .pop _) hc (bytesFrom_pop hfit hop)
    ((validIndex_eq_false _).2 (Nat.not_lt.2 ha))

/-- Settles O46: the PUSH leaves the bytes of the POP, the POP reads the cell the PUSH stored to, and its increment undoes
the decrement. -/
theorem pushThenPopRoundTrip : Obligations.PushThenPopRoundTrip := by
  rintro s _ c ha hc hcyc hrun hwf hpc hopush rfl hopop hopc hne2 hne3
  have ha8 := Nat.lt_succ_of_lt ha
  have hc8 := Nat.lt_succ_of_lt hc
  have hpush := step_push hcyc hrun (Nat.lt_succ_of_le (by omega)) hopush ha8
  rw [get_set_ne _ _ _ _ (Fin.ne_of_lt ha)] at hpush
  have hnext : (s.pc + 2#9).toNat = s.pc.toNat + 2 := by
    rw [BitVec.toNat_add, BitVec.toNat_ofNat]
    omega
  have hfit : (s.pc + 2#9).toNat + 1 < 256 := by omega
  have hopop' : (s.pushed ⟨_, ha8⟩).mem.get (s.pc + 2#9).toNat = 0x46#8 := by
    rw [hnext, pushed_mem, mem_get_set_ne _ _ _ _ hne2.symm, hopop]
  have hopc' : (s.pushed ⟨_, ha8⟩).mem.get ((s.pc + 2#9).toNat + 1) = c := by
    rw [hnext, pushed_mem, mem_get_set_ne _ _ _ _ hne3.symm, hopc]
  have hpop := step_pop (s := { s.pushed ⟨_, ha8⟩ with pc := s.pc + 2#9, runState := .running })
    (.inr rfl) hrun hfit hopop' hopc' hc8
  have hc7 : (⟨c.toNat, hc8⟩ : Fin 8) ≠ 7 := Fin.ne_of_lt hc
  simp only [pushed_regs, pushed_mem, if_neg (mt (index_eq_seven_iff hc8).2 hc7), get_set_same,
    mem_get_set_same _ _ 0 _ hwf, set_sp_round_trip _ hc7, BitVec.add_assoc] at hpop
  rw [core_run_next 1 _ _ hpush]
  exact core_run_next 0 _ _ hpop

/-- Settles O47. -/
theorem stackReversesOrder : Obligations.StackReversesOrder := by
  intro rs c s hlen hrs hc hwf
  obtain ⟨t, ht, hbal⟩ := execAll_pushAllPopAll hc rs s hlen hrs hwf
  exact ⟨t, ht, hbal.out_eq, hbal.sp_eq⟩

/-- Settles O53: PUSH and POP alone have a stack check, and it alone depends on the policy. -/
theorem stackPoliciesDifferOnlyAtTheEnds : Obligations.StackPoliciesDifferOnlyAtTheEnds := by
  refine ⟨fun i s hpush hpop => ?_, fun a s hsp => ?_, fun a s hsp => ?_⟩
  · cases i with
    | push a => rw [execUnder, execUnder, pushUnder_eq_wrap (stackCheck_fault_ok (hpush ⟨a, rfl⟩))]
    | pop a => rw [execUnder, execUnder, popUnder_eq_wrap (stackCheck_fault_ok (hpop ⟨a, rfl⟩))]
    | hlt | ldi | prn | mul => rfl
  · rw [execUnder, pushUnder_check_error (stackCheck_fault_error hsp), settle_error]
    rfl
  · rw [execUnder, popUnder_check_error (stackCheck_fault_error hsp), settle_error]
    rfl

end Sys2Proof.Machine
end

/-! SUPPORT. The causes of a fault, in the order the cycle checks them: what the decoder answers on the bytes at `pc`, and
how a cycle ends for each answer (rules R112 to R116, R182, R185). -/
section
namespace Sys2Proof.Machine

/-- A handler takes any operand bytes, as long as there are as many as its opcode asks for (R85, R86). -/
theorem exists_withOperands (h : Handler) {ops : List Byte}
    (hlen : ops.length = (decodeFields h.opcode).operandCount.toNat) : ∃ i, h.withOperands ops = some i := by
  cases h with
  | hlt =>
    obtain rfl := List.length_eq_zero_iff.1 hlen
    exact ⟨_, rfl⟩
  | prn | push | pop =>
    obtain ⟨a, rfl⟩ := List.length_eq_one_iff.1 hlen
    exact ⟨_, rfl⟩
  | ldi | mul =>
    obtain ⟨a, b, rfl⟩ := List.length_eq_two.1 hlen
    exact ⟨_, rfl⟩

/-- An opcode with a handler decodes where the operand bytes it asks for are there (R85, R86). -/
theorem exists_decode_cons (h : Handler) {rest : List Byte}
    (hlen : (decodeFields h.opcode).operandCount.toNat ≤ rest.length) : ∃ d, decode (h.opcode :: rest) = .ok d := by
  obtain ⟨i, hi⟩ := exists_withOperands h (List.length_take_of_le hlen)
  refine ⟨⟨decodeFields h.opcode, i, rest.drop (decodeFields h.opcode).operandCount.toNat⟩, ?_⟩
  simp only [decode, findHandler_opcode, if_neg (Nat.not_lt.2 hlen), hi]

/-- All that the decoder can answer on the bytes at `pc`, in R185's order: there is no opcode, the opcode has no handler,
an operand byte it asks for lies past the top of memory, or it is an instruction. -/
theorem decode_window_cases (s : State) :
    (256 ≤ s.pc.toNat ∧ decode s.window = .error .noOpcode) ∨
      (s.pc.toNat < 256 ∧
        ((findHandler (s.mem.get s.pc.toNat) = none ∧
            decode s.window = .error (.illegalOpcode (s.mem.get s.pc.toNat))) ∨
          (findHandler (s.mem.get s.pc.toNat) ≠ none ∧
            ((256 ≤ s.pc.toNat + (decodeFields (s.mem.get s.pc.toNat)).operandCount.toNat ∧
                decode s.window = .error .missingOperand) ∨
              (s.pc.toNat + (decodeFields (s.mem.get s.pc.toNat)).operandCount.toNat < 256 ∧
                ∃ d, decode s.window = .ok d))))) := by
  by_cases hp : s.pc.toNat < 256
  · refine .inr ⟨hp, ?_⟩
    rw [State.window, bytesFrom_succ _ _ _ hp]
    cases hf : findHandler (s.mem.get s.pc.toNat) with
    | none => exact .inl ⟨rfl, by simp only [decode, hf]⟩
    | some h =>
      refine .inr ⟨nofun, ?_⟩
      rw [findHandler_some _ h hf]
      by_cases hfit : s.pc.toNat + (decodeFields h.opcode).operandCount.toNat < 256
      · have hops := bytesFrom_length s.mem (s.pc.toNat + 1) (decodeFields h.opcode).operandCount.toNat
          (show _ ≤ 256 by omega)
        rw [← bytesFrom_take _ _ _ _ (operandCount_le h), List.length_take] at hops
        exact .inr ⟨hfit, exists_decode_cons h (by omega)⟩
      · have hshort : (s.mem.bytesFrom (s.pc.toNat + 1) 2).length < (decodeFields h.opcode).operandCount.toNat :=
          bytesFrom_length_lt _ _ _ _ hp (show 256 < _ by omega)
        exact .inl ⟨by omega, by simp only [decode, findHandler_opcode, if_pos hshort]⟩
  · exact .inl ⟨by omega, by rw [State.window, bytesFrom_ge _ _ _ (Nat.not_lt.1 hp), decode]⟩

/-- A cycle on bytes that are no instruction ends in the fault of the decoder's answer (R112 to R116). -/
theorem step_end_of_decode_error {s t : State} {e : DecodeError} (h : step s = .next t)
    (he : decode s.window = .error e) : t.runState = .faulted ∧ t.faultReason = some (decodeErrorKind e) := by
  obtain rfl := Host.Outcome.next.inj ((step_of_decode_error (step_cases s t h).1 he).symm.trans h)
  exact ⟨rfl, rfl⟩

/-- A cycle on the bytes of an instruction faults exactly when a register operand is above 7, and then with `OutOfBounds`:
the register index is the one cause a handler has (R182; D3). -/
theorem step_end_of_decode {s t : State} {d : Decoded} (h : step s = .next t) (hd : decode s.window = .ok d) :
    (d.instr.wellFormed = true ∧ t.runState ≠ .faulted) ∨
      (d.instr.wellFormed = false ∧ t.runState = .faulted ∧ t.faultReason = some .outOfBounds) := by
  obtain ⟨u, hu⟩ := exec_next d.instr (startCycle s)
  obtain rfl := Host.Outcome.next.inj ((step_of_decode (step_cases s t h).1 hd hu).symm.trans h)
  obtain ⟨hw, hcomp⟩ | ⟨hw, rfl⟩ := exec_cases hu
  · have hrs : u.runState = .running := hcomp.runState_eq
    refine .inl ⟨hw, ?_⟩
    rcases afterHandler_runState (decodeFields d.instr.opcode).operandCount u with hr | hr <;> simp [hr, hrs]
  · rw [afterHandler_faulted _ _ (raise_runState _ _)]
    exact .inr ⟨hw, rfl, rfl⟩

end Sys2Proof.Machine
end

/-! The statements about the exceptions (`60_exceptions.md`). -/
section
namespace Sys2Proof.Machine

/-- Settles O41: the decoder's four answers on the bytes at `pc` exclude each other, and each fixes how the cycle ends; of
the instructions, those that name a register above 7 fault. -/
theorem faultCauses : Obligations.FaultCauses := by
  intro s t h
  obtain ⟨hp, hd⟩ | ⟨hp, ⟨hnone, hd⟩ | ⟨hsome, ⟨htop, hd⟩ | ⟨hfit, d, hd⟩⟩⟩ := decode_window_cases s
  · obtain ⟨hrs, hreason⟩ := step_end_of_decode_error h hd
    simp [hrs, hreason, decodeErrorKind, hp]
  · obtain ⟨hrs, hreason⟩ := step_end_of_decode_error h hd
    simp [hrs, hreason, decodeErrorKind, hp, hnone, hd]
  · obtain ⟨hrs, hreason⟩ := step_end_of_decode_error h hd
    simp [hrs, hreason, decodeErrorKind, hsome, htop]
  · obtain ⟨hw, hrs⟩ | ⟨hw, hrs, hreason⟩ := step_end_of_decode h hd
    · simp [hrs, hp, hsome, hfit, hd, hw]
    · simp [hrs, hreason, hsome, hd, hw]

end Sys2Proof.Machine
end

/-! SUPPORT. What loading reads back as, how `load` and a cycle after it answer, and how step budgets add up (rules R212,
R213, R215). -/
section
namespace Sys2Proof.Machine

/-! ### Placing bytes -/

/-- Bytes placed from `a` up leave every cell below `a` (R65). -/
theorem mem_get_setMany_below (m : Memory) (bs : List Byte) {a i : Nat} (h : i < a) :
    (m.setMany a bs).get i = m.get i := by
  induction bs generalizing m a with
  | nil => rfl
  | cons b bs ih =>
    rw [Memory.setMany]
    split
    · rw [ih _ (Nat.lt_succ_of_lt h), mem_get_set_ne _ _ _ _ (Nat.ne_of_lt h)]
    · rfl

/-- Of bytes placed from `a` up that all fit, byte `i` stands in cell `a + i`, and the cells past the last are left (R212). -/
theorem mem_get_setMany_add {m : Memory} (hm : m.wf = true) {a : Nat} (bs : List Byte) (h : a + bs.length ≤ memSize)
    (i : Nat) : (m.setMany a bs).get (a + i) = bs[i]?.getD (m.get (a + i)) := by
  induction bs generalizing m a i with
  | nil => rfl
  | cons b bs ih =>
    rw [List.length_cons] at h
    have ha : a < memSize := by omega
    rw [Memory.setMany, if_pos ha]
    cases i with
    | zero => exact (mem_get_setMany_below _ _ (Nat.lt_succ_self a)).trans (mem_get_set_same m a 0 b hm)
    | succ i =>
      have hrest := ih (wf_set m a b hm ha) (by omega : a + 1 + bs.length ≤ memSize) i
      rwa [Nat.add_right_comm, Nat.add_assoc, mem_get_set_ne _ _ _ _ (by omega)] at hrest

/-! ### The answers of `load` -/

theorem load_accepted {h : Session} {bytes : List Byte} (hr : h.machine.runState = .ready) (hp : h.loadPhase = .notLoaded)
    (hlen : bytes.length ≤ memSize) : h.load bytes = (⟨loadBytes bytes h.machine, .loaded⟩, .accepted) := by
  simp [Session.load, hr, hp, hlen]

theorem load_too_long {h : Session} {bytes : List Byte} (hr : h.machine.runState = .ready) (hp : h.loadPhase = .notLoaded)
    (hlen : memSize < bytes.length) : h.load bytes = ({ h with loadPhase := .failed }, .failed .outOfBounds) := by
  simp [Session.load, hr, hp, hlen]

theorem load_again {h : Session} (bytes : List Byte) (hr : h.machine.runState = .ready) (hp : h.loadPhase ≠ .notLoaded) :
    h.load bytes = (h, .refused .secondLoad) := by
  cases hphase : h.loadPhase with
  | notLoaded => exact absurd hphase hp
  | loaded | failed => simp [Session.load, hr, hphase]

theorem load_not_ready {h : Session} (bytes : List Byte) (hr : h.machine.runState ≠ .ready) :
    h.load bytes = (h, .refused .notReady) := by
  simp [Session.load, hr]

theorem cycle_after_failed_load {h : Session} (hp : h.loadPhase = .failed) : h.cycle = .refused .loadFailed := by
  simp [Session.cycle, hp]

/-! ### Step budgets -/

theorem step_of_not_ended {s : State} (hs : s.ended ≠ true) : ∃ t, step s = .next t :=
  step_next s (not_not.1 (mt (ended_iff s).2 hs))

/-- Stopping after `j` cycles changes nothing: the cycles that follow are those of the uncut run (R215; D18, log entry 22). -/
theorem runFuel_add (j k : Nat) (s : State) : runFuel (j + k) s = runFuel k (runFuel j s) := by
  induction j generalizing s with
  | zero => rw [Nat.zero_add, runFuel]
  | succ j ih =>
    by_cases hs : s.ended = true
    · simp only [runFuel_ended _ s hs]
    · obtain ⟨t, ht⟩ := step_of_not_ended hs
      rw [Nat.add_right_comm, runFuel_next _ s t ht, runFuel_next _ s t ht, ih]

/-- Cycles past the limit of a run add nothing (R124, R125). -/
theorem runFuel_limit_add (k : Nat) (s : State) : runFuel (runLimit + k) s = run s := by
  rw [runFuel_add]
  exact runFuel_ended k (run s) (run_ended s)

/-- After at least one cycle a run that has not ended is in `running`: its last cycle led there (R111). -/
theorem runFuel_succ_running {j : Nat} {s : State} (h : (runFuel (j + 1) s).ended ≠ true) :
    (runFuel (j + 1) s).runState = .running := by
  rw [runFuel_add j 1 s] at h ⊢
  have hlast : (runFuel j s).ended ≠ true := fun hend => h (by rwa [runFuel_ended _ _ hend])
  obtain ⟨t, ht⟩ := step_of_not_ended hlast
  rw [runFuel_next 0 _ t ht] at h ⊢
  exact step_running_of_not_ended ht h

end Sys2Proof.Machine
end

/-! The statements about the host interface (`70_reset_and_hazards.md`). -/
section
namespace Sys2Proof.Machine

/-- Settles O54: the bytes fit, so cell `0 + i` holds byte `i`. -/
theorem loadPlacesBytesFromAddressZero : Obligations.LoadPlacesBytesFromAddressZero := by
  intro h bytes hr hp hwf hlen
  refine ⟨loadBytes bytes h.machine, load_accepted hr hp hlen, fun i => ?_, rfl, wf_setMany _ 0 bytes hwf⟩
  have hget := mem_get_setMany_add hwf bytes (by rwa [Nat.zero_add]) i
  rw [Nat.zero_add] at hget
  rw [loadBytes_mem, hget]
  split
  · next hi => rw [List.getElem?_eq_getElem hi, Option.getD_some]
  · next hi => rw [List.getElem?_eq_none (Nat.le_of_not_lt hi), Option.getD_none]

/-- Settles O56: budgets add up, and a run has ended after 129 cycles. -/
theorem budgetedRunsContinue : Obligations.BudgetedRunsContinue := by
  refine ⟨runFuel_add, fun j s => ?_, fun n s hn => ?_, fun j s hj hend => ?_⟩
  · calc run (runFuel j s)
        = runFuel (j + runLimit) s := (runFuel_add j runLimit s).symm
      _ = run s := by rw [Nat.add_comm, runFuel_limit_add]
  · obtain ⟨k, rfl⟩ := Nat.exists_eq_add_of_le hn
    have hrun : runFuel (129 + k) s = run s := runFuel_limit_add k s
    exact ⟨hrun ▸ run_ended s, hrun⟩
  · obtain ⟨j, rfl⟩ := Nat.exists_eq_add_of_lt hj
    rw [Nat.zero_add] at hend ⊢
    exact runFuel_succ_running (by simp [hend])

/-- Settles O55: each clause is one answer of `load`. -/
theorem loadFailsOrIsRefused : Obligations.LoadFailsOrIsRefused := by
  refine fun h bytes => ⟨fun hr hp hlen => ?_, load_again bytes, load_not_ready bytes⟩
  rw [load_too_long hr hp hlen]
  exact ⟨rfl, rfl, cycle_after_failed_load rfl⟩

end Sys2Proof.Machine
end
